-- ==== Sys2Proof/Word.lean ====
section
/-! DEFINITION. The value types of the ISAAC engine: words, bytes, indices, the 256-word blocks (R9, R41),
the names of the state elements a command can ask for (R141), and a command transaction (R60). -/

namespace Sys2Proof

/-- A *word*: an unsigned 32-bit integer (R9). Its `+` wraps modulo 2^32 and its shifts are logical (R10). -/
abbrev Word := BitVec 32

/-- A *byte*: an unsigned 8-bit integer (R9). -/
abbrev Byte := BitVec 8

/-- An index into `mm` or `randrsl`, 0..255 (R9, R41). Its `+` wraps modulo 256, as every index of the block does (R42). -/
abbrev Index := BitVec 8

/-- A 64-bit command word (R61). -/
abbrev CommandWord := BitVec 64

/-- 256 words indexed 0..255: the shape of `mm` and of `randrsl` (R20, R21, R22, R33). -/
abbrev Block := Vector Word 256

/-- The state elements INSPECT can name (R67, R141). -/
inductive Region where
  | mm | randrsl | aa | bb | cc | randcnt | status
  deriving DecidableEq, Repr

/-- A command transaction: one command word and, for SEED, its payload bytes, `s[0]` first (R60, R64). -/
structure Transaction where
  word    : CommandWord
  payload : List Byte
  deriving DecidableEq, Repr

end Sys2Proof
end

