-- ==== Sys2Proof/Config.lean ====
section
/-! DEFINITION. The implementation parameters of R7 that the definitions name. The widths (32-bit words, 256 entries,
32-bit LEN and COUNT fields) stand in the types; the constant shift amounts stand in the formulas of R85 and R102 to R105.
NUM_INSTANCES is open: `Machine.Platform` holds any number. HOST_BINDING and WIRE_ORDER are open and change no rule. -/

namespace Sys2Proof.Config

/-- SEED_MAX_BYTES: seed bytes beyond these have no effect (R7, R82). -/
def seedMaxBytes : Nat := 1024

/-- GOLDEN: the golden-ratio constant (R7, R84). -/
def golden : Word := 0x9e3779b9#32

/-- PRESCRAMBLE_ROUNDS: applications of SEED_MIX before any seed word is used (R7, R86). -/
def prescrambleRounds : Nat := 4

/-- WARMUP_STEPS: GEN_STEPs at the end of SEED (R7, R89). -/
def warmupSteps : Nat := 2

/-- RANDSIZ: the words of `mm` and of `randrsl`, and so the slots of a GEN_STEP (R7, R100). -/
def randsiz : Nat := 256

/-- The groups of eight entries in a seed pass (R87: `j in 0..31`). -/
def seedGroups : Nat := 32

/-- CURSOR_AFTER_SEED, which a refill sets too (R7, R90, R120). -/
def fullCursor : Nat := 256

/-- HAS_INSPECT: whether the block has the INSPECT command. A parameter whose default is true (R7; spec/93 U11);
the decoder is written for both values (log entry 7, DESIGN CHOICE). -/
def hasInspect : Bool := true

end Sys2Proof.Config
end

