-- ==== Sys2Proof/Syntax.lean ====
section
/-! DEFINITION. The commands of the block at transaction level (R75), one constructor per row of spec/opcode_table.json. -/

namespace Sys2Proof

/-- A host command (R62, R75). -/
inductive Instr where
  /-- SEED, with the seed bytes (R80). -/
  | seed (bytes : List Byte)
  /-- NEXT_WORD (R122). -/
  | nextWord
  /-- NEXT_BYTES, with the requested count, possibly negative (R123). -/
  | nextBytes (count : Int)
  /-- INSPECT, with REGION and INDEX (R140). -/
  | inspect (region : Region) (index : Index)
  deriving DecidableEq, Repr

end Sys2Proof
end

