-- ==== Sys2Proof/WellFormed.lean ====
section
/-! DEFINITION. Which commands the command word can carry: the bounds of its operand fields (R64, R66, R67). -/

namespace Sys2Proof

/-- LEN is an unsigned 32-bit field: a seed in one transaction has fewer than 2^32 bytes (R64). -/
abbrev SeedFits (bytes : List Byte) : Prop := bytes.length < 2 ^ 32

/-- COUNT is a 32-bit two's complement field (R66). -/
abbrev CountFits (count : Int) : Prop := -2 ^ 31 ≤ count ∧ count < 2 ^ 31

/-- The regions whose INDEX selects an entry: 0 (`mm`) and 1 (`randrsl`) (R67). -/
def Region.indexed : Region → Bool
  | .mm => true
  | .randrsl => true
  | .aa => false
  | .bb => false
  | .cc => false
  | .randcnt => false
  | .status => false

/-- INDEX must be 0 for regions 2 to 6 (R67). -/
abbrev IndexFits (region : Region) (index : Index) : Prop := region.indexed = true ∨ index = 0#8

/-- The commands that some legal transaction carries. -/
def Instr.wellFormed : Instr → Bool
  | .seed bytes => decide (SeedFits bytes)
  | .nextWord => true
  | .nextBytes count => decide (CountFits count)
  | .inspect region index => decide (IndexFits region index)

end Sys2Proof
end

