-- ==== Sys2Proof/Decode.lean ====
section
/-! DEFINITION. The command word: its fields (R61), the total decoder (R62 to R68), the length of a transaction (R71),
and the encoder, from the same tables. -/

namespace Sys2Proof

/-! ### Fields of the command word (R61) -/

/-- OPC, bits 63:56 (R61). -/
def opcField (cw : CommandWord) : BitVec 8 := cw.extractLsb' 56 8

/-- RSV, bits 55:32, must be 0 (R61, R63). -/
def rsvField (cw : CommandWord) : BitVec 24 := cw.extractLsb' 32 24

/-- ARG, bits 31:0 (R61). -/
def argField (cw : CommandWord) : Word := cw.extractLsb' 0 32

/-- INSPECT's ZERO, ARG[31:12] (R67). -/
def zeroField (arg : Word) : BitVec 20 := arg.extractLsb' 12 20

/-- INSPECT's REGION, ARG[11:8] (R67). -/
def regionField (arg : Word) : BitVec 4 := arg.extractLsb' 8 4

/-- INSPECT's INDEX, ARG[7:0] (R67). -/
def indexField (arg : Word) : Index := arg.extractLsb' 0 8

/-! ### Opcode and region numbers -/

/-- The opcode map (R62). -/
def Instr.opcode : Instr → BitVec 8
  | .seed _ => 0x01#8
  | .nextWord => 0x02#8
  | .nextBytes _ => 0x03#8
  | .inspect _ _ => 0x04#8

/-- The region numbers (R67, R141). -/
def Region.code : Region → BitVec 4
  | .mm => 0#4
  | .randrsl => 1#4
  | .aa => 2#4
  | .bb => 3#4
  | .cc => 4#4
  | .randcnt => 5#4
  | .status => 6#4

/-- The region a number names; 7 to 15 are reserved (R67, R141). -/
def regionOfCode (code : BitVec 4) : Option Region :=
  match code.toNat with
  | 0 => some .mm
  | 1 => some .randrsl
  | 2 => some .aa
  | 3 => some .bb
  | 4 => some .cc
  | 5 => some .randcnt
  | 6 => some .status
  | _ => none

/-! ### The decoder -/

/-- Why a command word is Illegal (R68, R73, R151). Every reason gives the same response, IllegalCommand. -/
inductive IllegalReason where
  /-- A bit of RSV is set (R63). -/
  | reservedBits
  /-- OPC is 0x00 or 0x05 to 0xFF (R62, R73). -/
  | reservedOpcode
  /-- NEXT_WORD with ARG ≠ 0 (R65). -/
  | nextWordArgument
  /-- OPC 0x04 in a block whose HAS_INSPECT is false (R151). -/
  | inspectAbsent
  /-- INSPECT with ARG[31:12] ≠ 0 (R67). -/
  | inspectZeroField
  /-- INSPECT with REGION 7 to 15 (R67). -/
  | inspectRegion
  /-- INSPECT with INDEX ≠ 0 and REGION 2 to 6 (R67). -/
  | inspectIndex
  deriving DecidableEq, Repr

/-- What a transaction decodes to: a command, or Illegal with its reason (R68). -/
inductive Decoded where
  | command (i : Instr)
  | illegal (why : IllegalReason)
  deriving DecidableEq, Repr

/-- INSPECT's part of the decoder, on ARG (R67, R68). -/
def decodeInspect (arg : Word) : Decoded :=
  if zeroField arg ≠ 0#20 then .illegal .inspectZeroField
  else match regionOfCode (regionField arg) with
    | none => .illegal .inspectRegion
    | some region =>
      if region.indexed = false ∧ indexField arg ≠ 0#8 then .illegal .inspectIndex
      else .command (.inspect region (indexField arg))

/-- The decoder of a block with the given HAS_INSPECT (R68, R151), on a transaction that has arrived whole:
COUNT is ARG sign-extended (R66), the seed is the payload (R64). It reads no state. -/
def decodeWith (hasInspect : Bool) (t : Transaction) : Decoded :=
  if rsvField t.word ≠ 0#24 then .illegal .reservedBits
  else match (opcField t.word).toNat with
    | 0x01 => .command (.seed t.payload)
    | 0x02 => if argField t.word ≠ 0#32 then .illegal .nextWordArgument else .command .nextWord
    | 0x03 => .command (.nextBytes (argField t.word).toInt)
    | 0x04 => if hasInspect then decodeInspect (argField t.word) else .illegal .inspectAbsent
    | _ => .illegal .reservedOpcode

/-- The decoder of this block (R68; HAS_INSPECT as `Config.hasInspect` has it). -/
def decode (t : Transaction) : Decoded := decodeWith Config.hasInspect t

/-- How many payload bytes belong to the transaction of a command word: LEN, zero-extended, when the word decodes to SEED,
none otherwise (R64, R71). -/
def payloadLength (cw : CommandWord) : Nat :=
  if rsvField cw = 0#24 ∧ opcField cw = 0x01#8 then (argField cw).toNat else 0

/-- The transaction has arrived whole: exactly its payload bytes follow the command word (R60). -/
abbrev Transaction.Complete (t : Transaction) : Prop := t.payload.length = payloadLength t.word

/-! ### The encoder -/

/-- A command word from OPC and ARG, RSV = 0 (R61). -/
def commandWord (opc : BitVec 8) (arg : Word) : CommandWord := opc ++ 0#24 ++ arg

/-- INSPECT's ARG (R67). -/
def inspectArg (region : Region) (index : Index) : Word := 0#20 ++ region.code ++ index

/-- The ARG field of a command (R64 to R67). -/
def Instr.arg : Instr → Word
  | .seed bytes => BitVec.ofNat 32 bytes.length
  | .nextWord => 0#32
  | .nextBytes count => BitVec.ofInt 32 count
  | .inspect region index => inspectArg region index

/-- The payload of a command: the seed bytes of SEED, none otherwise (R60). -/
def Instr.payload : Instr → List Byte
  | .seed bytes => bytes
  | .nextWord => []
  | .nextBytes _ => []
  | .inspect _ _ => []

/-- The transaction that carries a command (R60 to R67). -/
def encode (i : Instr) : Transaction := ⟨commandWord i.opcode i.arg, i.payload⟩

/-! ### The host's question about one opcode-table word -/

/-- The command word whose low `nbits` bits are those of `w`, the rest 0. -/
def tableWord (nbits w : Nat) : CommandWord := BitVec.ofNat 64 (w % 2 ^ nbits)

/-- The whole transaction of a table word: a payload of zero bytes, as many as the word asks for. -/
def tableTransaction (nbits w : Nat) : Transaction :=
  ⟨tableWord nbits w, List.replicate (payloadLength (tableWord nbits w)) 0#8⟩

/-- The command the decoder reads from an opcode-table word, none where it is Illegal. -/
def decodeTableWord (nbits w : Nat) : Option Instr :=
  match decode (tableTransaction nbits w) with
  | .command i => some i
  | .illegal _ => none

end Sys2Proof
end

