-- ==== Sys2Proof/Machine/State.lean ====
section
/-! DEFINITION. The state of one instance (R20), the host inputs that reach it and the responses it gives (R60, R69),
the reasons a step can stop, and the state after reset (R36, R170). -/

namespace Sys2Proof.Machine

/-- The status of a response (R70). -/
inductive Status where
  | ok | invalidArgument | illegalCommand | unseeded
  deriving DecidableEq, Repr

/-- The 2-bit status codes (R69, R70). -/
def Status.code : Status → BitVec 2
  | .ok => 0#2
  | .invalidArgument => 1#2
  | .illegalCommand => 2#2
  | .unseeded => 3#2

/-- The one response to a transaction: `(STATUS, VALUE, BYTES)` (R69). -/
structure Response where
  status : Status
  value  : Word
  bytes  : List Byte
  deriving DecidableEq, Repr

/-- What the outside world can do to an instance: send a transaction (R60) or reset it (R170). -/
inductive HostInput where
  | transaction (t : Transaction)
  | reset
  deriving DecidableEq, Repr

/-- The persistent state of one instance, all of it (R20). -/
structure Engine where
  /-- working memory of the Mixing State (R21) -/
  mm      : Block
  /-- the Output Block (R22) -/
  randrsl : Block
  /-- accumulator (R23) -/
  aa      : Word
  /-- accumulator (R24) -/
  bb      : Word
  /-- counter accumulator (R25) -/
  cc      : Word
  /-- the Cursor, in [0, 256] in every legal state (R26, R34; log entry 4) -/
  randcnt : Nat
  /-- SEEDED: a SEED has completed since reset (R27) -/
  seeded  : Bool
  deriving DecidableEq, Repr

/-- One instance and its host interface. -/
structure State where
  /-- the block's persistent state (R20) -/
  engine : Engine
  /-- MODEL'S OWN (DESIGN CHOICE, log entry 2): what the host sends, next first -/
  inbox  : List HostInput
  /-- MODEL'S OWN (DESIGN CHOICE, log entry 3): the responses given so far, oldest first -/
  outbox : List Response
  deriving DecidableEq, Repr

/-- The block has no trap mechanism (R150), no out-of-range access (R42) and no misaligned one (R43): no step faults. -/
inductive Fault where
  deriving DecidableEq, Repr

/-- Why a step has no meaning. None of these is about an instruction that the block would execute. -/
inductive Refusal where
  /-- Raised by `exec` for an instruction that has no meaning yet; no arm raises it. Safe. -/
  | notModelled (mnemonic : String)
  /-- Raised by `deliver`: the host starts a transaction while an earlier one is still in delivery, which the spec
  leaves without any outcome (R55, R174; spec/93 U3). Safe. -/
  | overlappingTransaction
  /-- Raised by `deliver`: more bytes follow the command word than its transaction has, so that this is no transaction
  (R60, R71). Safe. -/
  | surplusPayload
  /-- Raised by `Platform.stepAt` for a number that names no instance of the platform (R162). Safe. -/
  | noSuchInstance
  deriving DecidableEq, Repr

/-- The elements after reset: SEEDED = 0 (R36, R170). The others hold no value and no command reads them while SEEDED = 0
(R27); the zeros in them are the model's (DESIGN CHOICE, log entry 1). -/
def Engine.afterReset : Engine where
  mm      := Vector.replicate 256 0#32
  randrsl := Vector.replicate 256 0#32
  aa      := 0#32
  bb      := 0#32
  cc      := 0#32
  randcnt := 0
  seeded  := false

/-- The machine right after reset: it waits for a command (R171). -/
def State.reset : State where
  engine := Engine.afterReset
  inbox  := []
  outbox := []

end Sys2Proof.Machine
end

