-- ==== Sys2Proof/Machine/Ops.lean ====
section
/-! DEFINITION. The named operations on the state: one word of a block (R41, R50), the response that ends a command (R69),
the error response in place of a trap (R150 to R152), the reset event (R170), and the host's end of the interface (R165). -/

namespace Sys2Proof.Machine

/-- The outcome of a step of this machine. -/
abbrev Result := Host.Outcome State Fault Refusal

/-! ### The two word memories (R41) -/

/-- Read entry `i` of `mm` or `randrsl`: one whole word (R11, R41, R50). -/
def readEntry (b : Block) (i : Index) : Word := b[i.toNat]'i.isLt

/-- Write entry `i` of `mm` or `randrsl`: one whole word (R11, R50). -/
def writeEntry (b : Block) (i : Index) (w : Word) : Block := b.set i.toNat w i.isLt

/-! ### Parts of the state -/

/-- Replace the block's persistent state. -/
def State.setEngine (s : State) (e : Engine) : State := { s with engine := e }

/-- Replace the host inputs still to come. -/
def State.setInbox (s : State) (inputs : List HostInput) : State := { s with inbox := inputs }

/-- Give the host one response. -/
def State.addResponse (s : State) (r : Response) : State := { s with outbox := s.outbox ++ [r] }

/-! ### Ending a command -/

/-- `respond(OK, value, bytes)`: the command completes with its one response (R11, R69). -/
def respondOk (value : Word) (bytes : List Byte) (s : State) : Result := .next (s.addResponse ⟨.ok, value, bytes⟩)

/-- `raise <status>`: the command ends with a non-OK status, VALUE 0, BYTES empty and no element of the state changed;
nothing is saved and control goes nowhere (R11, R69, R150, R152, R156). This is the block's whole exception mechanism. -/
def raise (status : Status) (s : State) : Result := .next (s.addResponse ⟨status, 0#32, []⟩)

/-! ### Reset and the host's end of the interface -/

/-- The reset event: SEEDED becomes 0, every other element is left without a value, and no response is given (R170).
The inputs of the host that come after it are `rest`. -/
def resetEvent (rest : List HostInput) (s : State) : Result := .next ((s.setEngine Engine.afterReset).setInbox rest)

/-- The host issues an input (R165): it is taken after those issued before it (R54). -/
def State.offer (s : State) (x : HostInput) : State := s.setInbox (s.inbox ++ [x])

end Sys2Proof.Machine
end

