-- ==== Sys2Proof/Machine/Generator.lean ====
section
/-! DEFINITION. GEN_STEP, the ISAAC mixing step (R100 to R106): 256 slots in ascending order, in place. It is no host
command: SEED and the word take run it (R107). The spec marks its formulas as general knowledge (log entry 10, UNVERIFIED beyond
the spec). -/

namespace Sys2Proof.Machine

/-- The prologue of the step: `cc <- cc + 1`, then `bb <- bb + cc` with the incremented value (R101). -/
def genPrologue (e : Engine) : Engine := { e with cc := e.cc + 1#32, bb := e.bb + (e.cc + 1#32) }

/-- The combining operation of slot `i`, chosen by `i mod 4` (R102). -/
def slotMix (i : Index) (a : Word) : Word :=
  match i.toNat % 4 with
  | 0 => a ^^^ (a <<< 13)
  | 1 => a ^^^ (a >>> 6)
  | 2 => a ^^^ (a <<< 2)
  | _ => a ^^^ (a >>> 16)

/-- The partner index `(i + 128) mod 256` (R42, R103). -/
def partnerIndex (i : Index) : Index := i + 128#8

/-- The first indirect index `(x >> 2) mod 256`, bits 9:2 of `x` (R42, R104). -/
def firstIndirect (x : Word) : Index := (x >>> 2).setWidth 8

/-- The second indirect index `(y >> 10) mod 256`, bits 17:10 of `y` (R42, R105). -/
def secondIndirect (y : Word) : Index := (y >>> 10).setWidth 8

/-- One slot of the step (R100, R102 to R105): the read of `bb` follows the write of `mm[i]`. -/
def genSlot (i : Index) (e : Engine) : Engine :=
  let x := readEntry e.mm i
  let aa := readEntry e.mm (partnerIndex i) + slotMix i e.aa
  let y := readEntry e.mm (firstIndirect x) + aa + e.bb
  let mm := writeEntry e.mm i y
  let bb := readEntry mm (secondIndirect y) + x
  { e with mm := mm, aa := aa, bb := bb, randrsl := writeEntry e.randrsl i bb }

/-- Slots `0, 1, ..., n-1` in ascending order (R100). -/
def genSlots : Nat → Engine → Engine
  | 0, e => e
  | n + 1, e => genSlot (BitVec.ofNat 8 n) (genSlots n e)

/-- GEN_STEP: generate one block (R100). `randcnt` and SEEDED are its caller's. (Irreducible, so that no unification runs
the 256 slots; `genStep_def` and the kernel unfold it.) -/
@[irreducible] def genStep (e : Engine) : Engine := genSlots Config.randsiz (genPrologue e)

/-- `n` GEN_STEPs one after another (R89). -/
def genSteps : Nat → Engine → Engine
  | 0, e => e
  | n + 1, e => genStep (genSteps n e)

end Sys2Proof.Machine
end

