-- ==== Sys2Proof/Machine/Flags.lean ====
section
/-! DEFINITION. The block's one flag. No command sets a condition code, carry, overflow or zero flag: every addition wraps
silently (R31). The only flag is SEEDED, read through the read-only STATUS word (R32). -/

namespace Sys2Proof.Machine

/-- The STATUS word: bit 0 is SEEDED, bits 31:1 are hardwired 0 (R32, R141). -/
def statusWord (e : Engine) : Word := (BitVec.ofBool e.seeded).setWidth 32

/-- SEEDED <- 1 (R27, R90). Only a reset clears it (R27). -/
def setSeeded (e : Engine) : Engine := { e with seeded := true }

end Sys2Proof.Machine
end

