-- ==== Sys2Proof/Machine/Operands.lean ====
section
/-! DEFINITION. The operand forms: how seed bytes become words (R45, R81, R82), how words become output bytes
(R46, R124 to R126), and which element a REGION and INDEX select (R141). -/

namespace Sys2Proof.Machine

/-! ### Seed bytes to words -/

/-- `t[j]`: seed byte `j` for `j < min(L, 1024)`, 0 otherwise (R81, R82). -/
def seedByte (s : List Byte) (j : Nat) : Byte :=
  if j < min s.length Config.seedMaxBytes then s.getD j 0#8 else 0#8

/-- Word `k` of the packed seed: `{t[4k+3], t[4k+2], t[4k+1], t[4k]}`, little-endian, each byte unsigned (R45, R81). -/
def packWord (s : List Byte) (k : Nat) : Word :=
  seedByte s (4 * k + 3) ++ seedByte s (4 * k + 2) ++ seedByte s (4 * k + 1) ++ seedByte s (4 * k)

/-! ### Words to output bytes -/

/-- Bytes 0 (least significant) to 3 of a word (R8). -/
def wordByte (w : Word) (n : Nat) : Byte := w.extractLsb' (8 * n) 8

/-- A whole word: `w[31:24], w[23:16], w[15:8], w[7:0]` (R46, R124). -/
def wholeWordBytes (w : Word) : List Byte := [wordByte w 3, wordByte w 2, wordByte w 1, wordByte w 0]

/-- A two-byte tail: `w[15:8], w[7:0]`; the high half is discarded (R46, R125). -/
def twoByteTail (w : Word) : List Byte := [wordByte w 1, wordByte w 0]

/-- A one-byte tail: `w[7:0]`; the other 24 bits are discarded (R46, R126). -/
def oneByteTail (w : Word) : List Byte := [wordByte w 0]

/-! ### The element INSPECT selects -/

/-- The VALUE of a region (R140, R141); INDEX matters only for regions 0 and 1. -/
def readRegion (region : Region) (index : Index) (e : Engine) : Word :=
  match region with
  | .mm => readEntry e.mm index
  | .randrsl => readEntry e.randrsl index
  | .aa => e.aa
  | .bb => e.bb
  | .cc => e.cc
  | .randcnt => BitVec.ofNat 32 e.randcnt
  | .status => statusWord e

end Sys2Proof.Machine
end

