-- ==== Sys2Proof/Machine/Extraction.lean ====
section
/-! DEFINITION. The word cursor, NEXT_WORD and NEXT_BYTES (R120 to R131). -/

namespace Sys2Proof.Machine

/-- A value taken from the stream, and the state the take leaves. -/
structure Taken (α : Type) where
  value  : α
  engine : Engine
  deriving DecidableEq, Repr

/-- Refill: with `randcnt = 0`, GEN_STEP and `randcnt <- 256`; otherwise nothing (R120). -/
def refill (e : Engine) : Engine :=
  if e.randcnt = 0 then { genStep e with randcnt := Config.fullCursor } else e

/-- TAKE_WORD (R121). The index `randcnt - 1` is 0..255 for every legal cursor; it is reduced modulo 256 as every index
of the block is (R42). -/
def takeWord (e : Engine) : Taken Word :=
  let e := refill e
  ⟨readEntry e.randrsl (BitVec.ofNat 8 (e.randcnt - 1)), { e with randcnt := e.randcnt - 1 }⟩

/-- NEXT_WORD (R122). -/
def execNextWord (s : State) : Result :=
  if s.engine.seeded = false then raise .unseeded s
  else
    let w := takeWord s.engine
    respondOk w.value [] (s.setEngine w.engine)

/-- `q` whole words, four bytes each (R124). -/
def takeWholeWords : Nat → Engine → Taken (List Byte)
  | 0, e => ⟨[], e⟩
  | q + 1, e =>
    let w := takeWord e
    let more := takeWholeWords q w.engine
    ⟨wholeWordBytes w.value ++ more.value, more.engine⟩

/-- The two-byte tail, taken when 2 or 3 bytes remain (R125). -/
def takeTwoByteTail (r : Nat) (e : Engine) : Taken (List Byte) :=
  if 2 ≤ r then
    let w := takeWord e
    ⟨twoByteTail w.value, w.engine⟩
  else ⟨[], e⟩

/-- The one-byte tail, taken when 1 byte remains (R126). -/
def takeOneByteTail (r : Nat) (e : Engine) : Taken (List Byte) :=
  if r = 1 then
    let w := takeWord e
    ⟨oneByteTail w.value, w.engine⟩
  else ⟨[], e⟩

/-- The bytes of NEXT_BYTES(n) for `n ≥ 0` (R123): the loop of R124 runs `n div 4` times and leaves `r = n mod 4` (log entry 12, DEDUCED); the
two-byte tail leaves `r - 2` when it runs (R125). -/
def takeBytes (n : Nat) (e : Engine) : Taken (List Byte) :=
  let r := n % 4
  let whole := takeWholeWords (n / 4) e
  let two := takeTwoByteTail r whole.engine
  let one := takeOneByteTail (if 2 ≤ r then r - 2 else r) two.engine
  ⟨whole.value ++ two.value ++ one.value, one.engine⟩

/-- NEXT_BYTES (R123): Unseeded before InvalidArgument (R153). -/
def execNextBytes (count : Int) (s : State) : Result :=
  if s.engine.seeded = false then raise .unseeded s
  else if count < 0 then raise .invalidArgument s
  else
    let out := takeBytes count.toNat s.engine
    respondOk 0#32 out.value (s.setEngine out.engine)

end Sys2Proof.Machine
end

