-- ==== Sys2Proof/Machine/Inspect.lean ====
section
/-! DEFINITION. INSPECT (R140 to R144): one state element, no side effect. -/

namespace Sys2Proof.Machine

/-- INSPECT (R140): STATUS is readable before any SEED, the other regions only after one (R143). -/
def execInspect (region : Region) (index : Index) (s : State) : Result :=
  if region ≠ .status ∧ s.engine.seeded = false then raise .unseeded s
  else respondOk (readRegion region index s.engine) [] s

end Sys2Proof.Machine
end

