-- ==== Sys2Proof/Machine/Seeder.lean ====
section
/-! DEFINITION. SEED (R80) and the parts it is built from: PACK, SEED_MIX, the pre-scramble and the two seed passes.
The spec marks SEED_MIX, the order inside a pass and the cleared accumulators as general knowledge (log entry 10,
UNVERIFIED beyond the spec). -/

namespace Sys2Proof.Machine

/-! ### Step 1: packing (R81, R82) -/

/-- Write the first `n` words of the packed seed over a block. -/
def packWords (s : List Byte) : Nat → Block → Block
  | 0, b => b
  | n + 1, b => writeEntry (packWords s n b) (BitVec.ofNat 8 n) (packWord s n)

/-- PACK: `randrsl` becomes the packed seed words (R81). (Irreducible, as `genStep` is.) -/
@[irreducible] def pack (s : List Byte) (e : Engine) : Engine := { e with randrsl := packWords s Config.randsiz e.randrsl }

/-! ### Step 2: accumulators, scratch registers, pre-scramble (R83 to R86) -/

/-- `aa <- 0; bb <- 0; cc <- 0` (R83). -/
def clearAccumulators (e : Engine) : Engine := { e with aa := 0#32, bb := 0#32, cc := 0#32 }

/-- The eight seeder scratch registers, local to SEED (R28, R84). -/
structure Scratch where
  a : Word
  b : Word
  c : Word
  d : Word
  e : Word
  f : Word
  g : Word
  h : Word
  deriving DecidableEq, Repr

/-- All eight at the golden-ratio constant (R84). -/
def goldenScratch : Scratch :=
  ⟨Config.golden, Config.golden, Config.golden, Config.golden, Config.golden, Config.golden, Config.golden, Config.golden⟩

/-- SEED_MIX: the 24 statements of R85 in their order, each reading the latest values. -/
def seedMix (r : Scratch) : Scratch :=
  let ⟨a, b, c, d, e, f, g, h⟩ := r
  let a := a ^^^ (b <<< 11)
  let d := d + a
  let b := b + c
  let b := b ^^^ (c >>> 2)
  let e := e + b
  let c := c + d
  let c := c ^^^ (d <<< 8)
  let f := f + c
  let d := d + e
  let d := d ^^^ (e >>> 16)
  let g := g + d
  let e := e + f
  let e := e ^^^ (f <<< 10)
  let h := h + e
  let f := f + g
  let f := f ^^^ (g >>> 4)
  let a := a + f
  let g := g + h
  let g := g ^^^ (h <<< 8)
  let b := b + g
  let h := h + a
  let h := h ^^^ (a >>> 9)
  let c := c + h
  let a := a + b
  ⟨a, b, c, d, e, f, g, h⟩

/-- `n` applications of SEED_MIX (R86). -/
def seedMixes : Nat → Scratch → Scratch
  | 0, r => r
  | n + 1, r => seedMix (seedMixes n r)

/-- The constant pre-scramble: four SEED_MIX on the golden scratch registers (R86). -/
def prescramble : Scratch := seedMixes Config.prescrambleRounds goldenScratch

/-! ### Step 3: the two seed passes (R87, R88) -/

/-- Add the eight source words from entry `i` on into the scratch registers (R87). -/
def addSource (src : Block) (i : Index) (r : Scratch) : Scratch :=
  ⟨r.a + readEntry src i, r.b + readEntry src (i + 1#8), r.c + readEntry src (i + 2#8), r.d + readEntry src (i + 3#8),
   r.e + readEntry src (i + 4#8), r.f + readEntry src (i + 5#8), r.g + readEntry src (i + 6#8),
   r.h + readEntry src (i + 7#8)⟩

/-- Write the eight scratch registers to the eight entries from entry `i` on (R87). -/
def storeScratch (b : Block) (i : Index) (r : Scratch) : Block :=
  let b := writeEntry b i r.a
  let b := writeEntry b (i + 1#8) r.b
  let b := writeEntry b (i + 2#8) r.c
  let b := writeEntry b (i + 3#8) r.d
  let b := writeEntry b (i + 4#8) r.e
  let b := writeEntry b (i + 5#8) r.f
  let b := writeEntry b (i + 6#8) r.g
  writeEntry b (i + 7#8) r.h

/-- What a seed pass carries from group to group: the scratch registers and the block's state (R87). -/
structure Pass where
  scratch : Scratch
  engine  : Engine
  deriving DecidableEq, Repr

/-- Group `j` of a pass, on entries `8j..8j+7`; `src` is the block the pass folds in, read as it is now (R87, R88). -/
def seedGroup (src : Engine → Block) (j : Nat) (p : Pass) : Pass :=
  let i := BitVec.ofNat 8 (8 * j)
  let scratch := seedMix (addSource (src p.engine) i p.scratch)
  ⟨scratch, { p.engine with mm := storeScratch p.engine.mm i scratch }⟩

/-- Groups `0, 1, ..., n-1` of a pass. The scratch registers are not reset between groups (R87). -/
def seedGroups (src : Engine → Block) : Nat → Pass → Pass
  | 0, p => p
  | n + 1, p => seedGroup src n (seedGroups src n p)

/-- SEED_PASS: all 32 groups (R87, R88). (Irreducible, as `genStep` is.) -/
@[irreducible] def seedPass (src : Engine → Block) (p : Pass) : Pass := seedGroups src Config.seedGroups p

/-! ### The command -/

/-- The state SEED leaves (R80 to R90). -/
def seedEngine (s : List Byte) (e : Engine) : Engine :=
  let start : Pass := ⟨prescramble, clearAccumulators (pack s e)⟩
  let afterFirst := seedPass Engine.randrsl start
  let afterSecond := seedPass Engine.mm afterFirst
  let warm := genSteps Config.warmupSteps afterSecond.engine
  setSeeded { warm with randcnt := Config.fullCursor }

/-- SEED (R80): accepted whether SEEDED is 0 or 1; it never fails (R91). -/
def execSeed (bytes : List Byte) (s : State) : Result := respondOk 0#32 [] (s.setEngine (seedEngine bytes s.engine))

end Sys2Proof.Machine
end

