-- ==== Sys2Proof/Machine/Dispatch.lean ====
section
/-! DEFINITION. One arm per command: its meaning. -/

namespace Sys2Proof.Machine

def exec (i : Instr) (s : State) : Host.Outcome State Fault Refusal :=
  match i with
  | .seed bytes => Sys2Proof.Machine.execSeed bytes s
  | .nextWord => Sys2Proof.Machine.execNextWord s
  | .nextBytes count => Sys2Proof.Machine.execNextBytes count s
  | .inspect region index => Sys2Proof.Machine.execInspect region index s

end Sys2Proof.Machine
end

