-- ==== Sys2Proof/Machine/Delivery.lean ====
section
/-! DEFINITION. What the block does with the next input of its host: a reset event (R170), a transaction (R60), or none.
The two refusals and the wait are log entry 9 (DEDUCED, DESIGN CHOICE). -/

namespace Sys2Proof.Machine

/-- A transaction whose payload has not all arrived: the block does not act on it yet (R60). A reset discards it without
a response (R170). A second transaction before the first is whole is no legal use of the interface, and the spec gives it
no outcome (R55; spec/93 U3). -/
def awaitPayload (rest : List HostInput) (s : State) : Result :=
  match rest with
  | [] => .next s
  | .reset :: rest => resetEvent rest s
  | .transaction _ :: _ => .refused .overlappingTransaction

/-- A transaction reaches the block: an Illegal word is refused with IllegalCommand before anything else and its payload
is discarded (R68, R153); a command runs once its transaction is whole (R60). -/
def receive (t : Transaction) (rest : List HostInput) (s : State) : Result :=
  match decode t with
  | .illegal _ => raise .illegalCommand (s.setInbox rest)
  | .command i =>
    if t.payload.length = payloadLength t.word then exec i (s.setInbox rest)
    else if t.payload.length < payloadLength t.word then awaitPayload rest s
    else .refused .surplusPayload

/-- One transition of an instance: it waits while the host sends nothing (R171), and otherwise takes the next input. -/
def deliver (s : State) : Result :=
  match s.inbox with
  | [] => .next s
  | .reset :: rest => resetEvent rest s
  | .transaction t :: rest => receive t rest s

/-- The host's next input is the given one. -/
def State.sendNext (s : State) (x : HostInput) : State := s.setInbox (x :: s.inbox)

end Sys2Proof.Machine
end

