-- ==== Sys2Proof/Machine/Step.lean ====
section
/-! DEFINITION. One step of an instance, and the placing of an opcode-table word as the next transaction. -/

namespace Sys2Proof.Machine

/-- One host command, one atomic transition (R11, R51). -/
def step (s : State) : Host.Outcome State Fault Refusal := deliver s

/-- `s` with the transaction of an opcode-table word as the host's next input (log entry 2). -/
def State.withFetchWord (s : State) (nbits w : Nat) : State := s.sendNext (.transaction (tableTransaction nbits w))

end Sys2Proof.Machine
end

