-- ==== Sys2Proof/Machine/Assembler.lean ====
section
/-! DEFINITION. The textual form of a command, one per line, `;` starting a comment (R74). Where R74 gives no lexical rule
(spaces, letter case of a hex digit, a `;` between quotes) the choice is the model's (DESIGN CHOICE, log entry 8). -/

namespace Sys2Proof.Machine

/-- Drop leading spaces. -/
def skipSpaces : List Char → List Char
  | [] => []
  | c :: cs => if c = ' ' then skipSpaces cs else c :: cs

/-- Drop a comment: everything from the first `;` that is not between double quotes. -/
def stripComment (quoted : Bool) : List Char → List Char
  | [] => []
  | c :: cs =>
    if c = ';' ∧ quoted = false then []
    else c :: stripComment (if c = '"' then !quoted else quoted) cs

/-- What follows a given beginning, if the line has it. -/
def afterPrefix : List Char → List Char → Option (List Char)
  | [], cs => some cs
  | _ :: _, [] => none
  | w :: ws, c :: cs => if w = c then afterPrefix ws cs else none

/-- The value of a decimal digit. -/
def decimalDigit (c : Char) : Option Nat := if '0' ≤ c ∧ c ≤ '9' then some (c.toNat - 48) else none

/-- The value of a hex digit. -/
def hexDigit (c : Char) : Option Nat :=
  if '0' ≤ c ∧ c ≤ '9' then some (c.toNat - 48)
  else if 'a' ≤ c ∧ c ≤ 'f' then some (c.toNat - 87)
  else if 'A' ≤ c ∧ c ≤ 'F' then some (c.toNat - 55)
  else none

/-- Read decimal digits; the value so far is `acc`. -/
def readDigits (acc : Nat) : List Char → Option Nat
  | [] => some acc
  | c :: cs => match decimalDigit c with
    | none => none
    | some d => readDigits (10 * acc + d) cs

/-- A decimal number of at least one digit. -/
def readNat (cs : List Char) : Option Nat := if cs = [] then none else readDigits 0 cs

/-- A decimal integer, possibly negative. -/
def readInt : List Char → Option Int
  | '-' :: cs => (readNat cs).map fun n => -(n : Int)
  | cs => (readNat cs).map Int.ofNat

/-- The listed bytes, two hex digits each, in order. -/
def readHexBytes : List Char → Option (List Byte)
  | [] => some []
  | [_] => none
  | a :: b :: cs => match hexDigit a, hexDigit b, readHexBytes cs with
    | some x, some y, some bytes => some (BitVec.ofNat 8 (16 * x + y) :: bytes)
    | _, _, _ => none

/-- The ASCII bytes of a text up to its closing quote, which ends the operand. -/
def readQuoted : List Char → Option (List Byte)
  | [] => none
  | c :: cs =>
    if c = '"' then (if cs = [] then some [] else none)
    else if c.toNat < 128 then (readQuoted cs).map fun bytes => BitVec.ofNat 8 c.toNat :: bytes
    else none

/-- `k]` with k in 0..255. -/
def readIndex (cs : List Char) : Option Index :=
  match cs.reverse with
  | ']' :: ds => match readNat ds.reverse with
    | none => none
    | some k => if k < 256 then some (BitVec.ofNat 8 k) else none
  | _ => none

/-- SEED's operand: `"text"` or `hex:b0b1...` (R74). -/
def readSeed (cs : List Char) : Option Instr :=
  match cs with
  | '"' :: text => (readQuoted text).map .seed
  | _ => match afterPrefix ['h', 'e', 'x', ':'] cs with
    | none => none
    | some digits => (readHexBytes digits).map .seed

/-- INSPECT's operand (R74). -/
def readInspect (cs : List Char) : Option Instr :=
  match afterPrefix ['m', 'm', '['] cs, afterPrefix ['r', 's', 'l', '['] cs with
  | some k, _ => (readIndex k).map (.inspect .mm)
  | none, some k => (readIndex k).map (.inspect .randrsl)
  | none, none =>
    if cs = ['a', 'a'] then some (.inspect .aa 0#8)
    else if cs = ['b', 'b'] then some (.inspect .bb 0#8)
    else if cs = ['c', 'c'] then some (.inspect .cc 0#8)
    else if cs = ['r', 'a', 'n', 'd', 'c', 'n', 't'] then some (.inspect .randcnt 0#8)
    else if cs = ['s', 't', 'a', 't', 'u', 's'] then some (.inspect .status 0#8)
    else none

/-- Drop the spaces around a text. -/
def trimSpaces (cs : List Char) : List Char := (skipSpaces (skipSpaces cs).reverse).reverse

/-- The operand after a mnemonic, which at least one space separates from it. -/
def operandAfter (mnemonic cs : List Char) : Option (List Char) :=
  (afterPrefix (mnemonic ++ [' ']) cs).map skipSpaces

/-- The command a line of assembly names (R74). -/
def readLine (line : List Char) : Option Instr :=
  let cs := trimSpaces (stripComment false line)
  if cs = ['N', 'E', 'X', 'T', 'W'] then some .nextWord
  else match operandAfter ['S', 'E', 'E', 'D'] cs with
    | some operand => readSeed operand
    | none => match operandAfter ['N', 'E', 'X', 'T', 'B'] cs with
      | some operand => (readInt operand).map .nextBytes
      | none => match operandAfter ['I', 'N', 'S', 'P', 'E', 'C', 'T'] cs with
        | some operand => readInspect operand
        | none => none

/-- Assemble one line: every line is one transaction (R74). The ARG of NEXTB is `n mod 2^32`. -/
def assembleLine (line : List Char) : Option Transaction := (readLine line).map encode

end Sys2Proof.Machine
end

