-- ==== Sys2Proof/Machine/Reference.lean ====
section
/-! DEFINITION. GEN_STEP as the reference construction writes it (R109): two loops of 128 slots with a partner pointer, and
indirect reads by byte offsets masked to word boundaries (R43). The machine runs `genStep`; this second form is here to be
proved equal to it. -/

namespace Sys2Proof.Machine

/-- The word of a block at a byte offset that is a multiple of 4 (R43). -/
def wordAtByteOffset (b : Block) (offset : Word) : Word := readEntry b (BitVec.ofNat 8 (offset.toNat / 4))

/-- One slot in the reference's form: `mix` is its combining operation, `m` the slot and `m2` the partner pointer. -/
def referenceSlot (mix : Word → Word) (m m2 : Nat) (e : Engine) : Engine :=
  let x := readEntry e.mm (BitVec.ofNat 8 m)
  let aa := mix e.aa + readEntry e.mm (BitVec.ofNat 8 m2)
  let y := wordAtByteOffset e.mm (x &&& 0x3FC#32) + aa + e.bb
  let mm := writeEntry e.mm (BitVec.ofNat 8 m) y
  let bb := wordAtByteOffset mm ((y >>> 8) &&& 0x3FC#32) + x
  { e with mm := mm, aa := aa, bb := bb, randrsl := writeEntry e.randrsl (BitVec.ofNat 8 m) bb }

/-- A loop body: four consecutive slots with the four operations of R102 in order. -/
def referenceBody (m m2 : Nat) (e : Engine) : Engine :=
  let e := referenceSlot (fun a => a ^^^ (a <<< 13)) m m2 e
  let e := referenceSlot (fun a => a ^^^ (a >>> 6)) (m + 1) (m2 + 1) e
  let e := referenceSlot (fun a => a ^^^ (a <<< 2)) (m + 2) (m2 + 2) e
  referenceSlot (fun a => a ^^^ (a >>> 16)) (m + 3) (m2 + 3) e

/-- `n` loop bodies from slot `m` on, with the partner pointer starting at `m2`. -/
def referenceLoop (m m2 : Nat) : Nat → Engine → Engine
  | 0, e => e
  | n + 1, e => referenceBody (m + 4 * n) (m2 + 4 * n) (referenceLoop m m2 n e)

/-- The step: slots 0..127 with the partner pointer at `mm[128..255]`, then slots 128..255 with it at `mm[0..127]`. -/
def referenceStep (e : Engine) : Engine := referenceLoop 128 0 32 (referenceLoop 0 128 32 (genPrologue e))

end Sys2Proof.Machine
end

