-- ==== Sys2Proof/Machine/Platform.lean ====
section
/-! DEFINITION. A platform of any number of instances (R162, NUM_INSTANCES): each has its own state, its own command
interface and its own reset (log entry 11, DESIGN CHOICE). -/

namespace Sys2Proof.Machine

/-- The instances of a platform. An instance has no identifier visible to itself (R162): its number is its place here. -/
structure Platform where
  instances : List State
  deriving DecidableEq, Repr

/-- A platform of `n` instances right after reset. -/
def Platform.reset (n : Nat) : Platform := ⟨List.replicate n State.reset⟩

/-- Instance `k` takes one step; it reads and writes its own state only (R58). -/
def Platform.stepAt (p : Platform) (k : Nat) : Host.Outcome Platform Fault Refusal :=
  match p.instances[k]? with
  | none => .refused .noSuchInstance
  | some s =>
    match step s with
    | .next t => .next ⟨p.instances.set k t⟩
    | .fault r => .fault r
    | .refused r => .refused r

/-- The host of instance `k` issues an input. -/
def Platform.offerAt (p : Platform) (k : Nat) (x : HostInput) : Platform := ⟨p.instances.modify k (State.offer · x)⟩

end Sys2Proof.Machine
end

