-- ==== Sys2Proof/Safety.lean ====
section
/-! DEFINITION. The terms in which statements about the machine are made: the legal states (R34), the word stream (R121,
R130), sequences of commands, and when two states cannot be told apart (R27). -/

namespace Sys2Proof.Machine

/-- What holds of a seeded instance after every command: the cursor is in [0, 256] (R34), and `bb` is the last output word
of the latest step, `randrsl[255]` (R24). -/
def Engine.Legal (e : Engine) : Prop := e.randcnt ≤ 256 ∧ e.bb = readEntry e.randrsl 255#8

/-- The invariant: a seeded instance is legal. Of an unseeded one nothing is said, since its elements hold no value (R27). -/
def State.Inv (s : State) : Prop := s.engine.seeded = true → s.engine.Legal

/-- Two states of the persistent elements that no command tells apart: the same SEEDED, and when it is set the same
elements. While it is 0 the elements hold no value (R27). -/
def Engine.Alike (e₁ e₂ : Engine) : Prop := e₁.seeded = e₂.seeded ∧ (e₁.seeded = true → e₁ = e₂)

/-- Two instances the host cannot tell apart: the same inputs to come, the same responses given, elements alike. -/
def State.Alike (s₁ s₂ : State) : Prop :=
  s₁.inbox = s₂.inbox ∧ s₁.outbox = s₂.outbox ∧ s₁.engine.Alike s₂.engine

/-- `k` words taken one after another (R121): the word stream. -/
def takeWords : Nat → Engine → Taken (List Word)
  | 0, e => ⟨[], e⟩
  | k + 1, e =>
    let w := takeWord e
    let more := takeWords k w.engine
    ⟨w.value :: more.value, more.engine⟩

/-- `W(n)`: how many words NEXT_BYTES(n) takes (R130). -/
def wordsTaken (n : Nat) : Nat := n / 4 + (if 2 ≤ n % 4 then 1 else 0) + (if n % 4 % 2 = 1 then 1 else 0)

/-- Commands run one after another, each completing before the next begins (R54). -/
def execAll : List Instr → State → Result
  | [], s => .next s
  | i :: is, s =>
    match exec i s with
    | .next t => execAll is t
    | .fault r => .fault r
    | .refused r => .refused r

/-- The next input is a reset, or a reset comes next while a transaction is still in delivery (R170). -/
def State.ResetIsNext (s : State) : Prop :=
  (∃ rest, s.inbox = .reset :: rest) ∨
    (∃ t rest, s.inbox = .transaction t :: .reset :: rest ∧ t.payload.length < payloadLength t.word)

/-- The command word is Illegal (R68). -/
def CommandIsIllegal (t : Transaction) : Prop := ∃ why, decode t = .illegal why

/-- Scratch register `k` of `a..h`, 0 to 7 (R84). -/
def Scratch.entry (r : Scratch) (k : Nat) : Word :=
  match k with
  | 0 => r.a
  | 1 => r.b
  | 2 => r.c
  | 3 => r.d
  | 4 => r.e
  | 5 => r.f
  | 6 => r.g
  | _ => r.h

/-- The block whose 256 words are all 0. -/
def zeroBlock : Block := Vector.replicate 256 0#32

end Sys2Proof.Machine
end

