-- ==== Sys2Proof/Certificates/Slice0/Obligations.lean ====
section
/-! DEFINITION. The statements about the machine, for the provers. Each docstring names the rules of spec/ it formalises. -/

open Sys2Proof Sys2Proof.Machine

/-! ### Reset and the host interface -/

/-- R36, R170, R171: after reset SEEDED = 0, and the block waits for a command. (That the inputs and responses of the
model's own interface start empty, and that a step with no input changes nothing, is the model's choice, log entries 2 and
3.) -/
def Obligations.ResetWaitsForCommand : Prop :=
  State.reset.engine.seeded = false ∧ State.reset.inbox = [] ∧ State.reset.outbox = [] ∧
    step State.reset = .next State.reset

/-- R170: a reset clears SEEDED and gives no response, and discards a transaction still in delivery without a response.
(The values left in the other elements are the model's choice, log entry 1, and nothing is said of them here.) -/
def Obligations.ResetEventClearsSeeded : Prop :=
  (∀ (s : State) rest, s.inbox = .reset :: rest →
    ∃ u, step s = .next u ∧ u.engine.seeded = false ∧ u.inbox = rest ∧ u.outbox = s.outbox) ∧
  (∀ (s : State) t i rest, s.inbox = .transaction t :: .reset :: rest → decode t = .command i →
    t.payload.length < payloadLength t.word →
    ∃ u, step s = .next u ∧ u.engine.seeded = false ∧ u.inbox = rest ∧ u.outbox = s.outbox)

/-- R11, R51, R60: when the next input is a whole transaction that decodes to a command, the step is that command's, run
with the input taken. The word the host places decodes and runs in the same way (log entry 2). -/
def Obligations.StepRunsDecodedCommand : Prop :=
  (∀ (s : State) t rest i, s.inbox = .transaction t :: rest → decode t = .command i → t.Complete →
    step s = exec i (s.setInbox rest)) ∧
  (∀ (s : State) nbits w i, decodeTableWord nbits w = some i → step (s.withFetchWord nbits w) = exec i s)

/-- R60, R55 (spec/93 U3): the block does not act on a transaction until all of it has arrived; a second transaction before
that, and bytes beyond the payload, have no outcome (the model's choices in log entry 9, DESIGN CHOICE). -/
def Obligations.PartTransactionWaits : Prop :=
  ∀ (s : State) t i, decode t = .command i →
    (s.inbox = [.transaction t] → t.payload.length < payloadLength t.word → step s = .next s) ∧
    (∀ t' rest, s.inbox = .transaction t :: .transaction t' :: rest → t.payload.length < payloadLength t.word →
      step s = .refused .overlappingTransaction) ∧
    (∀ rest, s.inbox = .transaction t :: rest → payloadLength t.word < t.payload.length →
      step s = .refused .surplusPayload)

/-- R54: a command sees none of any later one: an input issued later changes nothing of the present step but waits. -/
def Obligations.StepIgnoresLaterInputs : Prop :=
  ∀ (s u : State) x y rest, s.inbox = y :: rest →
    (∀ t, y = .transaction t → CommandIsIllegal t ∨ t.Complete) →
    step s = .next u → step (s.offer x) = .next (u.offer x)

/-! ### Decoding and encoding -/

/-- R60 to R67: decoding the transaction of a well-formed command gives the command back, and the transaction is whole. -/
def Obligations.DecodeOfEncode : Prop :=
  ∀ i : Instr, i.wellFormed = true → decode (encode i) = .command i ∧ (encode i).Complete

/-- R68: a transaction has one meaning: what a whole transaction decodes to is well-formed and encodes to that transaction. -/
def Obligations.EncodeOfDecode : Prop :=
  ∀ (t : Transaction) (i : Instr), t.Complete → decode t = .command i → i.wellFormed = true ∧ encode i = t

/-- R68 (spec/95 V-DEC, V-INS, V-NB-NEG): some words, as the spec decodes them. -/
def Obligations.DecodesWordsOfTheSpec : Prop :=
  decodeTableWord 64 0x0100000000000000 = some (.seed []) ∧
  decodeTableWord 64 0x0200000000000000 = some .nextWord ∧
  decodeTableWord 64 0x0200000000000001 = none ∧
  decodeTableWord 64 0x03000000fffffff9 = some (.nextBytes (-7)) ∧
  decodeTableWord 64 0x0300000080000000 = some (.nextBytes (-2147483648)) ∧
  decodeTableWord 64 0x04000000000001ff = some (.inspect .randrsl 255#8) ∧
  decodeTableWord 64 0x0400000000000201 = none ∧
  decodeTableWord 64 0x0000000000000000 = none

/-- R72: LEN is ARG zero-extended, COUNT is ARG sign-extended from bit 31, REGION and INDEX are ARG[11:8] and ARG[7:0];
nothing is scaled. -/
def Obligations.OperandsAreAssembled : Prop :=
  (∀ arg, payloadLength (commandWord 0x01#8 arg) = arg.toNat) ∧
  (∀ arg payload, decode ⟨commandWord 0x01#8 arg, payload⟩ = .command (.seed payload)) ∧
  (∀ arg payload, decode ⟨commandWord 0x03#8 arg, payload⟩ =
    .command (.nextBytes (if arg.toNat < 2 ^ 31 then (arg.toNat : Int) else (arg.toNat : Int) - 2 ^ 32))) ∧
  (∀ arg payload i, decode ⟨commandWord 0x04#8 arg, payload⟩ = .command i →
    ∃ r k, i = .inspect r k ∧ r.code.toNat = arg.toNat / 256 % 16 ∧ k.toNat = arg.toNat % 256)

/-- R62, R63, R65, R67, R73: the Illegal words are exactly these. -/
def Obligations.IllegalWordsAreExactly : Prop :=
  ∀ t : Transaction, CommandIsIllegal t ↔
    (rsvField t.word ≠ 0#24 ∨ opcField t.word = 0x00#8 ∨ 0x05 ≤ (opcField t.word).toNat ∨
      (opcField t.word = 0x02#8 ∧ argField t.word ≠ 0#32) ∨
      (opcField t.word = 0x04#8 ∧
        ((argField t.word).toNat / 4096 ≠ 0 ∨ 6 < (argField t.word).toNat / 256 % 16 ∨
          (2 ≤ (argField t.word).toNat / 256 % 16 ∧ (argField t.word).toNat % 256 ≠ 0))))

/-- R68: an Illegal transaction gets `(IllegalCommand, 0, [])`, changes no state, and its payload is discarded. -/
def Obligations.IllegalWordIsRefused : Prop :=
  ∀ (s : State) t rest, s.inbox = .transaction t :: rest → CommandIsIllegal t →
    step s = .next ((s.setInbox rest).addResponse ⟨.illegalCommand, 0#32, []⟩)

/-- R63: a set reserved bit refuses the word, whatever its OPC. -/
def Obligations.ReservedBitsAreRefused : Prop :=
  ∀ (s : State) t rest, s.inbox = .transaction t :: rest → rsvField t.word ≠ 0#24 →
    step s = .next ((s.setInbox rest).addResponse ⟨.illegalCommand, 0#32, []⟩)

/-- R65: NEXT_WORD needs ARG = 0. -/
def Obligations.NextWordArgumentMustBeZero : Prop :=
  (∀ arg payload, arg ≠ 0#32 → ∀ (s : State) rest,
    s.inbox = .transaction ⟨commandWord 0x02#8 arg, payload⟩ :: rest →
    step s = .next ((s.setInbox rest).addResponse ⟨.illegalCommand, 0#32, []⟩)) ∧
  (∀ payload, decode ⟨commandWord 0x02#8 0#32, payload⟩ = .command .nextWord)

/-- R7, R151 (spec/93 U11): a block without INSPECT refuses OPC 0x04 and decodes every other word alike. -/
def Obligations.BlockWithoutInspect : Prop :=
  ∀ t : Transaction,
    (opcField t.word = 0x04#8 → ∃ why, decodeWith false t = .illegal why) ∧
    (opcField t.word ≠ 0x04#8 → decodeWith false t = decodeWith true t)

/-- R74: some lines of assembly and the transactions they name; the ARG of NEXTB is `n mod 2^32`. -/
def Obligations.AssemblesLinesOfTheSpec : Prop :=
  assembleLine "SEED \"abc\" ; a comment".toList = some ⟨0x0100000000000003#64, [0x61#8, 0x62#8, 0x63#8]⟩ ∧
  assembleLine "SEED hex:0102ff".toList = some ⟨0x0100000000000003#64, [0x01#8, 0x02#8, 0xff#8]⟩ ∧
  assembleLine "SEED \"\"".toList = some ⟨0x0100000000000000#64, []⟩ ∧
  assembleLine "NEXTW".toList = some ⟨0x0200000000000000#64, []⟩ ∧
  assembleLine "NEXTB -7".toList = some ⟨0x03000000fffffff9#64, []⟩ ∧
  assembleLine "INSPECT rsl[255]".toList = some ⟨0x04000000000001ff#64, []⟩ ∧
  assembleLine "INSPECT randcnt".toList = some ⟨0x0400000000000500#64, []⟩ ∧
  ∀ n : Int, ((encode (.nextBytes n)).word.toNat : Int) = 0x0300000000000000 + n % 2 ^ 32

/-! ### SEED -/

/-- R80, R83, R89 to R91, R24: SEED completes for every byte sequence, in every state, with `(OK, 0, [])`. It packs the seed,
clears the accumulators, runs the two seed passes from the pre-scrambled registers and two GEN_STEPs; it leaves SEEDED = 1,
a full cursor, `cc = 2`, and `bb` equal to the last output word. (That the accumulators start at 0 and the order inside a
pass are marked by the spec as general knowledge, spec/93 G3 and G9.) -/
def Obligations.SeedCompletes : Prop :=
  ∀ bytes (s : State), ∃ t, exec (.seed bytes) s = .next t ∧ t.inbox = s.inbox ∧
    t.outbox = s.outbox ++ [⟨.ok, 0#32, []⟩] ∧ t.engine.seeded = true ∧ t.engine.randcnt = 256 ∧
    t.engine.cc = 2#32 ∧ t.engine.bb = readEntry t.engine.randrsl 255#8 ∧
    (let packed := pack bytes s.engine
     let start : Pass := ⟨prescramble, { packed with aa := 0#32, bb := 0#32, cc := 0#32 }⟩
     let after := (seedPass Engine.mm (seedPass Engine.randrsl start)).engine
     after.aa = 0#32 ∧ after.bb = 0#32 ∧ after.cc = 0#32 ∧
     t.engine = { genStep (genStep after) with randcnt := 256, seeded := true })

/-- R92 (which the spec derives from R80 to R90): the state after SEED is a function of the seed bytes alone, whatever the instance held before. -/
def Obligations.SeedIgnoresOldState : Prop :=
  ∀ bytes (s₁ s₂ : State), ∃ t₁ t₂, exec (.seed bytes) s₁ = .next t₁ ∧ exec (.seed bytes) s₂ = .next t₂ ∧
    t₁.engine = t₂.engine

/-- R93: seeds that agree on their first 1024 bytes give the same state, and so does a shorter seed zero-padded to 1024. -/
def Obligations.SeedTruncationAndPadding : Prop :=
  (∀ bytes₁ bytes₂ : List Byte, bytes₁.take 1024 = bytes₂.take 1024 →
    ∀ s, exec (.seed bytes₁) s = exec (.seed bytes₂) s) ∧
  (∀ bytes : List Byte, bytes.length < 1024 →
    ∀ s, exec (.seed bytes) s = exec (.seed (bytes ++ List.replicate (1024 - bytes.length) 0#8)) s) ∧
  (∀ s, exec (.seed []) s = exec (.seed (List.replicate 1024 0#8)) s)

/-- R81, R82, R45: PACK puts seed byte `4k+n` in byte `n` of word `k`, unsigned, zero beyond the seed and beyond 1024 bytes,
and leaves nothing of the old block. -/
def Obligations.PackIsLittleEndian : Prop :=
  ∀ (bytes : List Byte) (e : Engine) (k : Index) (n : Nat), n < 4 →
    (readEntry (pack bytes e).randrsl k).extractLsb' (8 * n) 8 =
      if 4 * k.toNat + n < min bytes.length 1024 then bytes.getD (4 * k.toNat + n) 0#8 else 0#8

/-- R86: the pre-scramble has the value the spec gives, for every SEED (a value the spec derives from its SEED_MIX, which it
marks as general knowledge, spec/93 G1). -/
def Obligations.PrescrambleValue : Prop :=
  prescramble = ⟨0x1367df5a#32, 0x95d90059#32, 0xc3163e4b#32, 0x0f421ad8#32,
    0xd92a4a78#32, 0xa51a3c49#32, 0xc4efea1b#32, 0x30609119#32⟩ ∧
  prescramble = seedMix (seedMix (seedMix (seedMix ⟨0x9e3779b9#32, 0x9e3779b9#32, 0x9e3779b9#32, 0x9e3779b9#32,
    0x9e3779b9#32, 0x9e3779b9#32, 0x9e3779b9#32, 0x9e3779b9#32⟩)))

/-- R87, R88: in a seed pass group `j` adds the eight source words as they were before the pass, mixes, and its scratch
registers are what entries `8j..8j+7` hold after the pass; nothing but `mm` changes. (The add-then-mix order and the carry
of the registers are marked by the spec as general knowledge, spec/93 G3.) -/
def Obligations.SeedPassFoldsItsSource : Prop :=
  (∀ (p : Pass) (j : Nat), j < 32 →
    (seedGroups Engine.mm (j + 1) p).scratch =
      seedMix (addSource p.engine.mm (BitVec.ofNat 8 (8 * j)) (seedGroups Engine.mm j p).scratch) ∧
    (seedGroups Engine.randrsl (j + 1) p).scratch =
      seedMix (addSource p.engine.randrsl (BitVec.ofNat 8 (8 * j)) (seedGroups Engine.randrsl j p).scratch)) ∧
  (∀ (src : Engine → Block) (p : Pass) (j k : Nat), j < 32 → k < 8 →
    readEntry (seedPass src p).engine.mm (BitVec.ofNat 8 (8 * j + k)) = (seedGroups src (j + 1) p).scratch.entry k) ∧
  (∀ (src : Engine → Block) (p : Pass), (seedPass src p).scratch = (seedGroups src 32 p).scratch ∧
    (seedPass src p).engine = { p.engine with mm := (seedPass src p).engine.mm })

/-! ### GEN_STEP -/

/-- R101 to R105: the recurrence of the step, in the blocks before and after it. `A i` is `aa` when slot `i` begins;
`y` is what the slot writes to `mm[i]`; the words output are the successive values of `bb`. (The spec marks these formulas
as general knowledge, spec/93 G4 to G7.) -/
def Obligations.GenStepRecurrence : Prop :=
  ∀ e : Engine, let t := genStep e
    t.cc = e.cc + 1#32 ∧ t.bb = readEntry t.randrsl 255#8 ∧ t.randcnt = e.randcnt ∧ t.seeded = e.seeded ∧
    ∃ A : Nat → Word, A 0 = e.aa ∧ A 256 = t.aa ∧ ∀ i : Index,
      let x := readEntry e.mm i
      let y := readEntry t.mm i
      let bbBefore := if i = 0#8 then e.bb + t.cc else readEntry t.randrsl (i - 1#8)
      let a := A i.toNat
      let mixed :=
        if i.toNat % 4 = 0 then a ^^^ (a <<< 13)
        else if i.toNat % 4 = 1 then a ^^^ (a >>> 6)
        else if i.toNat % 4 = 2 then a ^^^ (a <<< 2)
        else a ^^^ (a >>> 16)
      A (i.toNat + 1) = readEntry (if i.toNat < 128 then e.mm else t.mm) (i + 128#8) + mixed ∧
      y = readEntry (if (x.extractLsb' 2 8).toNat < i.toNat then t.mm else e.mm) (x.extractLsb' 2 8)
        + A (i.toNat + 1) + bbBefore ∧
      readEntry t.randrsl i =
        readEntry (if (y.extractLsb' 10 8).toNat ≤ i.toNat then t.mm else e.mm) (y.extractLsb' 10 8) + x

/-- R106 (which the spec derives from R100 to R105), R44: when slot `n` begins, the entries below `n` hold what this step leaves in them and the others what they held
before the step, in `mm` and in `randrsl`. -/
def Obligations.GenStepWorksInPlace : Prop :=
  ∀ (e : Engine) (n : Nat) (j : Index), n ≤ 256 →
    readEntry (genSlots n (genPrologue e)).mm j = readEntry (if j.toNat < n then (genStep e).mm else e.mm) j ∧
    readEntry (genSlots n (genPrologue e)).randrsl j =
      readEntry (if j.toNat < n then (genStep e).randrsl else e.randrsl) j

/-- R109, R43 (which the spec marks as general knowledge, spec/93 G4 and G10): the reference construction's two loops with
byte-offset reads compute exactly this step. -/
def Obligations.GenStepMatchesReferenceLoops : Prop :=
  (∀ e : Engine, referenceStep e = genStep e) ∧
  (∀ (b : Block) (x : Word), wordAtByteOffset b (x &&& 0x3FC#32) = readEntry b ((x >>> 2).setWidth 8)) ∧
  (∀ (b : Block) (y : Word), wordAtByteOffset b ((y >>> 8) &&& 0x3FC#32) = readEntry b ((y >>> 10).setWidth 8))

/-- R108: the step is a deterministic function of `mm`, `aa`, `bb`, `cc` alone, however often it is run; it writes all of
the output block, and the old output block has no effect. -/
def Obligations.GenStepIgnoresOutputBlock : Prop :=
  ∀ (e₁ e₂ : Engine) (n : Nat), e₁.mm = e₂.mm → e₁.aa = e₂.aa → e₁.bb = e₂.bb → e₁.cc = e₂.cc →
    (genSteps n e₁).mm = (genSteps n e₂).mm ∧ (genSteps n e₁).aa = (genSteps n e₂).aa ∧
    (genSteps n e₁).bb = (genSteps n e₂).bb ∧ (genSteps n e₁).cc = (genSteps n e₂).cc ∧
    (0 < n → (genSteps n e₁).randrsl = (genSteps n e₂).randrsl)

/-- R110 (which the spec derives from R100 to R106): the corner cases of the step: `cc` wraps and the zero state stays zero; the first slot from the zero state reads
its own write; the first slot with `aa = 1`. -/
def Obligations.GenStepCornerCases : Prop :=
  ∀ (out : Block) (n : Nat) (f : Bool),
    genStep ⟨zeroBlock, out, 0#32, 0#32, 0xffffffff#32, n, f⟩ = ⟨zeroBlock, zeroBlock, 0#32, 0#32, 0#32, n, f⟩ ∧
    (let t := genSlots 1 (genPrologue ⟨zeroBlock, out, 0#32, 0#32, 0#32, n, f⟩)
     t.aa = 0#32 ∧ readEntry t.mm 0#8 = 1#32 ∧ t.bb = 1#32) ∧
    (let t := genSlots 1 (genPrologue ⟨zeroBlock, out, 1#32, 0#32, 0#32, n, f⟩)
     t.aa = 0x2001#32 ∧ readEntry t.mm 0#8 = 0x2002#32 ∧ t.bb = 0#32)

/-! ### The word cursor and NEXT_WORD -/

/-- R121, R122: with words left, NEXT_WORD returns `randrsl[randcnt - 1]` and moves the cursor; nothing else changes. -/
def Obligations.NextWordReturnsCursorWord : Prop :=
  ∀ s : State, s.engine.seeded = true → 0 < s.engine.randcnt → s.engine.randcnt ≤ 256 →
    exec .nextWord s = .next ⟨{ s.engine with randcnt := s.engine.randcnt - 1 }, s.inbox, s.outbox ++
      [⟨.ok, readEntry s.engine.randrsl (BitVec.ofNat 8 (s.engine.randcnt - 1)), []⟩]⟩

/-- R120, R121, R133: with an empty cursor NEXT_WORD runs exactly one GEN_STEP and returns the new `randrsl[255]`, which is
the new `bb`, leaving `randcnt = 255`. -/
def Obligations.NextWordRefillsEmptyCursor : Prop :=
  ∀ s : State, s.engine.seeded = true → s.engine.randcnt = 0 →
    exec .nextWord s = .next ⟨{ genStep s.engine with randcnt := 255 }, s.inbox,
      s.outbox ++ [⟨.ok, (genStep s.engine).bb, []⟩]⟩ ∧
    (genStep s.engine).bb = readEntry (genStep s.engine).randrsl 255#8

/-- R133 (which the spec derives), R121: from a full cursor, word `j` of the stream is `randrsl[255 - j mod 256]` of the block after `j div 256`
GEN_STEPs, and after `k ≥ 1` words `(k - 1) div 256` GEN_STEPs have run and `randcnt = 255 - (k - 1) mod 256`. -/
def Obligations.WordStreamFromFullCursor : Prop :=
  ∀ (e : Engine) (k : Nat), e.randcnt = 256 → 1 ≤ k →
    (takeWords k e).engine = { genSteps ((k - 1) / 256) e with randcnt := 255 - (k - 1) % 256 } ∧
    (takeWords k e).value.length = k ∧
    ∀ j, j < k → (takeWords k e).value[j]? =
      some (readEntry (genSteps (j / 256) e).randrsl (BitVec.ofNat 8 (255 - j % 256)))

/-! ### NEXT_BYTES -/

/-- R123, R130 (which the spec derives): NEXT_BYTES(n) completes on a seeded instance, takes `W(n)` words of the stream NEXT_WORD draws from, and
emits their bytes in the order taken: whole words, then the two-byte tail, then the one-byte tail; `n` bytes in all. -/
def Obligations.NextBytesTakesWordsInOrder : Prop :=
  ∀ (s : State) (n : Nat), s.engine.seeded = true →
    ∃ t bytes, exec (.nextBytes n) s = .next t ∧ t.inbox = s.inbox ∧ t.outbox = s.outbox ++ [⟨.ok, 0#32, bytes⟩] ∧
      t.engine = (takeWords (wordsTaken n) s.engine).engine ∧ bytes.length = n ∧
      bytes = (let ws := (takeWords (wordsTaken n) s.engine).value
        let whole := ws.take (n / 4)
        let tail := ws.drop (n / 4)
        let two := if 2 ≤ n % 4 then tail.take 1 else []
        let one := if n % 4 % 2 = 1 then tail.drop two.length else []
        whole.flatMap (fun w => [w.extractLsb' 24 8, w.extractLsb' 16 8, w.extractLsb' 8 8, w.extractLsb' 0 8]) ++
        two.flatMap (fun w => [w.extractLsb' 8 8, w.extractLsb' 0 8]) ++ one.map (fun w => w.extractLsb' 0 8))

/-- R124: while 4 or more bytes remain, one word is consumed and its four bytes are emitted most significant first. -/
def Obligations.NextBytesEmitsWholeWordFirst : Prop :=
  ∀ (s : State) (n : Nat), s.engine.seeded = true → 4 ≤ n →
    let w := takeWord s.engine
    ∃ t rest, exec (.nextBytes ((n - 4 : Nat) : Int)) (s.setEngine w.engine) = .next t ∧
      t.outbox = s.outbox ++ [⟨.ok, 0#32, rest⟩] ∧
      exec (.nextBytes (n : Int)) s = .next ⟨t.engine, s.inbox, s.outbox ++ [⟨.ok, 0#32,
        [w.value.extractLsb' 24 8, w.value.extractLsb' 16 8, w.value.extractLsb' 8 8, w.value.extractLsb' 0 8] ++ rest⟩]⟩

/-- R125, R126: the tails (the three-byte reading is the spec's decision D29). Two bytes come from the low half of one word, one byte from the low byte of one word, three bytes
from the low half of one word and the low byte of a further one. -/
def Obligations.NextBytesTails : Prop :=
  ∀ s : State, s.engine.seeded = true →
    let w₁ := takeWord s.engine
    let w₂ := takeWord w₁.engine
    exec (.nextBytes 1) s = .next ⟨w₁.engine, s.inbox, s.outbox ++ [⟨.ok, 0#32, [w₁.value.extractLsb' 0 8]⟩]⟩ ∧
    exec (.nextBytes 2) s = .next ⟨w₁.engine, s.inbox, s.outbox ++
      [⟨.ok, 0#32, [w₁.value.extractLsb' 8 8, w₁.value.extractLsb' 0 8]⟩]⟩ ∧
    exec (.nextBytes 3) s = .next ⟨w₂.engine, s.inbox, s.outbox ++
      [⟨.ok, 0#32, [w₁.value.extractLsb' 8 8, w₁.value.extractLsb' 0 8, w₂.value.extractLsb' 0 8]⟩]⟩

/-- R127: a zero count yields an empty sequence, consumes no words, runs no GEN_STEP and changes no state. -/
def Obligations.NextBytesZeroCount : Prop :=
  ∀ s : State, s.engine.seeded = true →
    exec (.nextBytes 0) s = .next ⟨s.engine, s.inbox, s.outbox ++ [⟨.ok, 0#32, []⟩]⟩

/-- R128: a negative count is refused with InvalidArgument; no word is taken and no GEN_STEP runs. -/
def Obligations.NextBytesNegativeCount : Prop :=
  ∀ (s : State) (n : Int), s.engine.seeded = true → n < 0 →
    exec (.nextBytes n) s = .next ⟨s.engine, s.inbox, s.outbox ++ [⟨.invalidArgument, 0#32, []⟩]⟩

/-- R131 (which the spec derives): a request split at a multiple of 4 returns the same bytes and leaves the same state. -/
def Obligations.NextBytesSplitsAtMultiplesOfFour : Prop :=
  ∀ (s : State) (a b : Nat), s.engine.seeded = true → a % 4 = 0 →
    ∃ t u v bytes₁ bytes₂, exec (.nextBytes a) s = .next t ∧ exec (.nextBytes b) t = .next u ∧
      exec (.nextBytes ((a + b : Nat) : Int)) s = .next v ∧
      t.outbox = s.outbox ++ [⟨.ok, 0#32, bytes₁⟩] ∧ u.outbox = t.outbox ++ [⟨.ok, 0#32, bytes₂⟩] ∧
      v.outbox = s.outbox ++ [⟨.ok, 0#32, bytes₁ ++ bytes₂⟩] ∧ u.engine = v.engine

/-- R49: NEXT_BYTES(4) takes exactly the word NEXT_WORD would return and gives its bytes in descending significance. -/
def Obligations.FourBytesMatchNextWord : Prop :=
  ∀ s : State, s.engine.seeded = true →
    ∃ w t u, exec .nextWord s = .next t ∧ t.outbox = s.outbox ++ [⟨.ok, w, []⟩] ∧
      exec (.nextBytes 4) s = .next u ∧ u.engine = t.engine ∧
      u.outbox = s.outbox ++ [⟨.ok, 0#32, [w.extractLsb' 24 8, w.extractLsb' 16 8, w.extractLsb' 8 8, w.extractLsb' 0 8]⟩]

/-- R120, R121 (frame): an extraction that finds enough words in the block moves the cursor and changes nothing else: every
entry of `mm` and `randrsl`, `aa`, `bb`, `cc`, SEEDED and the inputs to come stay as they were. -/
def Obligations.ExtractionFrameWithoutRefill : Prop :=
  ∀ (s : State) (n : Nat), s.engine.seeded = true → wordsTaken n ≤ s.engine.randcnt → s.engine.randcnt ≤ 256 →
    ∃ bytes, exec (.nextBytes n) s = .next ⟨{ s.engine with randcnt := s.engine.randcnt - wordsTaken n }, s.inbox,
      s.outbox ++ [⟨.ok, 0#32, bytes⟩]⟩

/-- R164 (which the spec derives), R107 (frame): NEXT_WORD runs at most one GEN_STEP and NEXT_BYTES(n) at most `W(n) div 256 + 1`, and but for these
they change the cursor only. -/
def Obligations.ExtractionRunsFewSteps : Prop :=
  ∀ s : State, s.engine.seeded = true → s.engine.randcnt ≤ 256 →
    (∃ t g, exec .nextWord s = .next t ∧ g ≤ 1 ∧
      t.engine = { genSteps g s.engine with randcnt := t.engine.randcnt } ∧ t.engine.randcnt ≤ 256) ∧
    (∀ n : Nat, ∃ t g, exec (.nextBytes n) s = .next t ∧ g ≤ wordsTaken n / 256 + 1 ∧
      t.engine = { genSteps g s.engine with randcnt := t.engine.randcnt } ∧ t.engine.randcnt ≤ 256)

/-! ### INSPECT -/

/-- R140, R141, R32: on a seeded instance INSPECT returns the element its region selects, and changes nothing. -/
def Obligations.InspectReturnsElement : Prop :=
  ∀ (s : State) (k : Index), s.engine.seeded = true → s.engine.randcnt ≤ 256 →
    let answer := fun v : Word => (Host.Outcome.next ⟨s.engine, s.inbox, s.outbox ++ [⟨.ok, v, []⟩]⟩ : Result)
    exec (.inspect .mm k) s = answer (readEntry s.engine.mm k) ∧
    exec (.inspect .randrsl k) s = answer (readEntry s.engine.randrsl k) ∧
    exec (.inspect .aa k) s = answer s.engine.aa ∧
    exec (.inspect .bb k) s = answer s.engine.bb ∧
    exec (.inspect .cc k) s = answer s.engine.cc ∧
    (∃ v : Word, v.toNat = s.engine.randcnt ∧ exec (.inspect .randcnt k) s = answer v) ∧
    exec (.inspect .status k) s = answer 1#32

/-- R142: an INSPECT anywhere in a sequence of commands changes no other response and no state. -/
def Obligations.InspectPerturbsNothing : Prop :=
  ∀ (before after : List Instr) (region : Region) (index : Index) (s : State),
    ∃ t u r rs₁ rs₂, execAll (before ++ after) s = .next t ∧
      execAll (before ++ .inspect region index :: after) s = .next u ∧
      rs₁.length = before.length ∧ t.outbox = s.outbox ++ rs₁ ++ rs₂ ∧ u.outbox = s.outbox ++ rs₁ ++ [r] ++ rs₂ ∧
      u.engine = t.engine ∧ u.inbox = t.inbox

/-! ### Statuses -/

/-- R143, R151, R171: while SEEDED = 0, NEXT_WORD, NEXT_BYTES and INSPECT of regions 0 to 5 answer Unseeded and change
nothing; INSPECT of region 6 answers SEEDED = 0. -/
def Obligations.UnseededAnswers : Prop :=
  ∀ s : State, s.engine.seeded = false →
    let answer := fun st : Status => (Host.Outcome.next ⟨s.engine, s.inbox, s.outbox ++ [⟨st, 0#32, []⟩]⟩ : Result)
    exec .nextWord s = answer .unseeded ∧
    (∀ n, exec (.nextBytes n) s = answer .unseeded) ∧
    (∀ region k, region ≠ .status → exec (.inspect region k) s = answer .unseeded) ∧
    (∀ k, exec (.inspect .status k) s = answer .ok)

/-- R153: the first status in the order IllegalCommand, Unseeded, InvalidArgument is the one reported. -/
def Obligations.StatusPriority : Prop :=
  (∀ (s : State) t rest, s.inbox = .transaction t :: rest → CommandIsIllegal t →
    step s = .next ((s.setInbox rest).addResponse ⟨.illegalCommand, 0#32, []⟩)) ∧
  (∀ (s : State) (n : Int), s.engine.seeded = false →
    exec (.nextBytes n) s = .next (s.addResponse ⟨.unseeded, 0#32, []⟩)) ∧
  (∀ (s : State) (n : Int), s.engine.seeded = true → n < 0 →
    exec (.nextBytes n) s = .next (s.addResponse ⟨.invalidArgument, 0#32, []⟩))

/-- R152, R150, R69: a transaction gets exactly one response, and a non-OK response leaves every element of the state as it
was, with VALUE 0 and BYTES empty. -/
def Obligations.ErrorsLeaveStateUnchanged : Prop :=
  ∀ (s : State) t rest, s.inbox = .transaction t :: rest → (CommandIsIllegal t ∨ t.Complete) →
    ∃ u r, step s = .next u ∧ u.inbox = rest ∧ u.outbox = s.outbox ++ [r] ∧
      (r.status ≠ .ok → u.engine = s.engine ∧ r.value = 0#32 ∧ r.bytes = [])

/-! ### The whole machine -/

/-- R34, R24: after reset the invariant holds. -/
def Obligations.ResetMeetsInvariant : Prop := State.reset.Inv

/-- R34, R26, R24: every step keeps the invariant: on a seeded instance the cursor stays in [0, 256], and `bb` is the last
output word of the latest step. -/
def Obligations.StepKeepsInvariant : Prop :=
  ∀ s t : State, s.Inv → step s = .next t → t.Inv

/-- R27: nothing clears SEEDED except reset. -/
def Obligations.OnlyResetClearsSeeded : Prop :=
  ∀ s t : State, step s = .next t → s.engine.seeded = true → ¬ s.ResetIsNext → t.engine.seeded = true

/-- R27, R36: before the first SEED the elements hold no value: two instances that differ in them only are never told
apart, whatever the host sends. -/
def Obligations.UnseededElementsAreUnobservable : Prop :=
  ∀ s₁ s₂ t₁ : State, s₁.Alike s₂ → step s₁ = .next t₁ → ∃ t₂, step s₂ = .next t₂ ∧ t₁.Alike t₂

/-- R94, R134: two generators given the same seed and then the same commands give the same responses, and end in the same
state, whatever they held before. -/
def Obligations.SameSeedSameResponses : Prop :=
  ∀ (bytes : List Byte) (commands : List Instr) (s₁ s₂ : State),
    ∃ t₁ t₂ rs, execAll (.seed bytes :: commands) s₁ = .next t₁ ∧ execAll (.seed bytes :: commands) s₂ = .next t₂ ∧
      t₁.outbox = s₁.outbox ++ rs ∧ t₂.outbox = s₂.outbox ++ rs ∧ rs.length = commands.length + 1 ∧
      t₁.engine = t₂.engine

/-- R58, R162: a step of one instance of a platform is that instance's own step and leaves every other instance alone, and
steps of different instances need no mutual ordering. -/
def Obligations.InstancesShareNothing : Prop :=
  (∀ (p : Platform) (k : Nat) (s t : State), p.instances[k]? = some s → step s = .next t →
    ∃ q, p.stepAt k = .next q ∧ q.instances[k]? = some t ∧ q.instances.length = p.instances.length ∧
      ∀ j, j ≠ k → q.instances[j]? = p.instances[j]?) ∧
  (∀ (p q₁ q₂ r : Platform) (j k : Nat), j ≠ k → p.stepAt j = .next q₁ → p.stepAt k = .next q₂ →
    (q₁.stepAt k = .next r ↔ q₂.stepAt j = .next r))
end

