-- ==== Sys2Proof/Laws/Decode.lean ====
section
/-! SUPPORT. The fields of a command word that the encoder built. -/

namespace Sys2Proof

/-- Bits of a command word: ARG low, then RSV = 0, then OPC (R61). -/
theorem getLsbD_commandWord (opc : BitVec 8) (arg : Word) (k : Nat) :
    (commandWord opc arg).getLsbD k =
      if k < 32 then arg.getLsbD k else if k < 56 then false else opc.getLsbD (k - 56) := by
  change BitVec.getLsbD (w := 8 + 24 + 32) (opc ++ 0#24 ++ arg) k = _
  rw [BitVec.getLsbD_append, BitVec.getLsbD_append]
  by_cases h : k < 32
  · simp [h]
  · by_cases h' : k < 56
    · simp [h, h', show k - 32 < 24 by omega]
    · simp [h, h', show ¬ k - 32 < 24 by omega, show k - 32 - 24 = k - 56 by omega]

@[simp] theorem opcField_commandWord (opc : BitVec 8) (arg : Word) : opcField (commandWord opc arg) = opc := by
  apply BitVec.eq_of_getLsbD_eq
  intro k hk
  simp only [opcField, BitVec.getLsbD_extractLsb', getLsbD_commandWord]
  simp [hk, show ¬ 56 + k < 32 by omega]

@[simp] theorem rsvField_commandWord (opc : BitVec 8) (arg : Word) : rsvField (commandWord opc arg) = 0#24 := by
  apply BitVec.eq_of_getLsbD_eq
  intro k hk
  simp only [rsvField, BitVec.getLsbD_extractLsb', getLsbD_commandWord]
  simp [hk, show 32 + k < 56 by omega]

@[simp] theorem argField_commandWord (opc : BitVec 8) (arg : Word) : argField (commandWord opc arg) = arg := by
  apply BitVec.eq_of_getLsbD_eq
  intro k hk
  simp only [argField, BitVec.getLsbD_extractLsb', getLsbD_commandWord]
  simp [hk]

/-- A region's number names that region (R67). -/
@[simp] theorem regionOfCode_code (r : Region) : regionOfCode r.code = some r := by cases r <;> rfl

/-- Bits of INSPECT's ARG: INDEX low, then REGION, then ZERO = 0 (R67). -/
theorem getLsbD_inspectArg (r : Region) (i : Index) (k : Nat) :
    (inspectArg r i).getLsbD k = if k < 8 then i.getLsbD k else if k < 12 then r.code.getLsbD (k - 8) else false := by
  change BitVec.getLsbD (w := 20 + 4 + 8) (0#20 ++ r.code ++ i) k = _
  rw [BitVec.getLsbD_append, BitVec.getLsbD_append]
  by_cases h : k < 8
  · simp [h]
  · by_cases h' : k < 12
    · simp [h, h', show k - 8 < 4 by omega]
    · simp [h, h', show ¬ k - 8 < 4 by omega]

@[simp] theorem zeroField_inspectArg (r : Region) (k : Index) : zeroField (inspectArg r k) = 0#20 := by
  apply BitVec.eq_of_getLsbD_eq
  intro n hn
  simp only [zeroField, BitVec.getLsbD_extractLsb', getLsbD_inspectArg]
  simp [show ¬ 12 + n < 8 by omega]

@[simp] theorem regionField_inspectArg (r : Region) (k : Index) : regionField (inspectArg r k) = r.code := by
  apply BitVec.eq_of_getLsbD_eq
  intro n hn
  simp only [regionField, BitVec.getLsbD_extractLsb', getLsbD_inspectArg]
  simp [hn, show 8 + n < 12 by omega]

@[simp] theorem indexField_inspectArg (r : Region) (k : Index) : indexField (inspectArg r k) = k := by
  apply BitVec.eq_of_getLsbD_eq
  intro n hn
  simp only [indexField, BitVec.getLsbD_extractLsb', getLsbD_inspectArg]
  simp [hn]

end Sys2Proof
end

