-- ==== Sys2Proof/Laws/State.lean ====
section
/-! SUPPORT. One lemma per field per update of the state, and the laws of a block's read and write. -/

namespace Sys2Proof.Machine

/-! ### State -/

@[simp] theorem State.setEngine_engine (s : State) (e : Engine) : (s.setEngine e).engine = e := rfl
@[simp] theorem State.setEngine_inbox (s : State) (e : Engine) : (s.setEngine e).inbox = s.inbox := rfl
@[simp] theorem State.setEngine_outbox (s : State) (e : Engine) : (s.setEngine e).outbox = s.outbox := rfl
@[simp] theorem State.setInbox_engine (s : State) (x : List HostInput) : (s.setInbox x).engine = s.engine := rfl
@[simp] theorem State.setInbox_inbox (s : State) (x : List HostInput) : (s.setInbox x).inbox = x := rfl
@[simp] theorem State.setInbox_outbox (s : State) (x : List HostInput) : (s.setInbox x).outbox = s.outbox := rfl
@[simp] theorem State.addResponse_engine (s : State) (r : Response) : (s.addResponse r).engine = s.engine := rfl
@[simp] theorem State.addResponse_inbox (s : State) (r : Response) : (s.addResponse r).inbox = s.inbox := rfl
@[simp] theorem State.addResponse_outbox (s : State) (r : Response) : (s.addResponse r).outbox = s.outbox ++ [r] := rfl

/-! ### SEEDED -/

@[simp] theorem setSeeded_mm (e : Engine) : (setSeeded e).mm = e.mm := rfl
@[simp] theorem setSeeded_randrsl (e : Engine) : (setSeeded e).randrsl = e.randrsl := rfl
@[simp] theorem setSeeded_aa (e : Engine) : (setSeeded e).aa = e.aa := rfl
@[simp] theorem setSeeded_bb (e : Engine) : (setSeeded e).bb = e.bb := rfl
@[simp] theorem setSeeded_cc (e : Engine) : (setSeeded e).cc = e.cc := rfl
@[simp] theorem setSeeded_randcnt (e : Engine) : (setSeeded e).randcnt = e.randcnt := rfl
@[simp] theorem setSeeded_seeded (e : Engine) : (setSeeded e).seeded = true := rfl

/-! ### Blocks -/

/-- A read after a write to the same entry gives the word written (R44). -/
@[simp] theorem readEntry_writeEntry_same (b : Block) (i : Index) (w : Word) : readEntry (writeEntry b i w) i = w := by
  simp [readEntry, writeEntry]

/-- A write leaves every other entry alone. -/
theorem readEntry_writeEntry_other (b : Block) {i j : Index} (w : Word) (h : i ≠ j) :
    readEntry (writeEntry b i w) j = readEntry b j := by
  have : i.toNat ≠ j.toNat := fun e => h (BitVec.eq_of_toNat_eq e)
  simp [readEntry, writeEntry, this]

/-- Both cases of a read after a write. -/
theorem readEntry_writeEntry (b : Block) (i j : Index) (w : Word) :
    readEntry (writeEntry b i w) j = if i = j then w else readEntry b j := by
  by_cases h : i = j
  · subst h; simp
  · simp [h, readEntry_writeEntry_other]

/-- Blocks with equal entries are equal. -/
theorem block_ext {b c : Block} (h : ∀ i, readEntry b i = readEntry c i) : b = c := by
  apply Vector.ext
  intro k hk
  have := h (BitVec.ofNat 8 k)
  have hm : k % 256 = k := Nat.mod_eq_of_lt hk
  simpa [readEntry, hm] using this

end Sys2Proof.Machine
end

