-- ==== Sys2Proof/Laws/Generator.lean ====
section
/-! SUPPORT. What the prologue, a slot, a run of slots and GEN_STEP leave unchanged, and what one slot writes. -/

namespace Sys2Proof.Machine

@[simp] theorem genPrologue_mm (e : Engine) : (genPrologue e).mm = e.mm := rfl
@[simp] theorem genPrologue_randrsl (e : Engine) : (genPrologue e).randrsl = e.randrsl := rfl
@[simp] theorem genPrologue_aa (e : Engine) : (genPrologue e).aa = e.aa := rfl
@[simp] theorem genPrologue_bb (e : Engine) : (genPrologue e).bb = e.bb + (e.cc + 1#32) := rfl
@[simp] theorem genPrologue_cc (e : Engine) : (genPrologue e).cc = e.cc + 1#32 := rfl
@[simp] theorem genPrologue_randcnt (e : Engine) : (genPrologue e).randcnt = e.randcnt := rfl
@[simp] theorem genPrologue_seeded (e : Engine) : (genPrologue e).seeded = e.seeded := rfl

@[simp] theorem genSlot_cc (i : Index) (e : Engine) : (genSlot i e).cc = e.cc := rfl
@[simp] theorem genSlot_randcnt (i : Index) (e : Engine) : (genSlot i e).randcnt = e.randcnt := rfl
@[simp] theorem genSlot_seeded (i : Index) (e : Engine) : (genSlot i e).seeded = e.seeded := rfl

/-- The slot's output is the new `bb` (R105). -/
@[simp] theorem genSlot_output (i : Index) (e : Engine) : readEntry (genSlot i e).randrsl i = (genSlot i e).bb := by
  simp [genSlot]

/-- The only write to `mm` in a slot is `mm[i]` (R104). -/
theorem genSlot_mm_other {i j : Index} (e : Engine) (h : i ≠ j) : readEntry (genSlot i e).mm j = readEntry e.mm j := by
  simp [genSlot, readEntry_writeEntry_other _ _ h]

/-- The only write to `randrsl` in a slot is `randrsl[i]` (R105). -/
theorem genSlot_randrsl_other {i j : Index} (e : Engine) (h : i ≠ j) :
    readEntry (genSlot i e).randrsl j = readEntry e.randrsl j := by
  simp [genSlot, readEntry_writeEntry_other _ _ h]

@[simp] theorem genSlots_cc (n : Nat) (e : Engine) : (genSlots n e).cc = e.cc := by
  induction n with
  | zero => rfl
  | succ n ih => simp [genSlots, ih]

@[simp] theorem genSlots_randcnt (n : Nat) (e : Engine) : (genSlots n e).randcnt = e.randcnt := by
  induction n with
  | zero => rfl
  | succ n ih => simp [genSlots, ih]

@[simp] theorem genSlots_seeded (n : Nat) (e : Engine) : (genSlots n e).seeded = e.seeded := by
  induction n with
  | zero => rfl
  | succ n ih => simp [genSlots, ih]

/-- GEN_STEP unfolded (R100). -/
theorem genStep_def (e : Engine) : genStep e = genSlots Config.randsiz (genPrologue e) := by
  unfold genStep; exact Eq.refl _

/-- A step counts once (R101). -/
@[simp] theorem genStep_cc (e : Engine) : (genStep e).cc = e.cc + 1#32 := by
  rw [genStep_def, genSlots_cc, genPrologue_cc]

@[simp] theorem genStep_randcnt (e : Engine) : (genStep e).randcnt = e.randcnt := by
  rw [genStep_def, genSlots_randcnt, genPrologue_randcnt]
@[simp] theorem genStep_seeded (e : Engine) : (genStep e).seeded = e.seeded := by
  rw [genStep_def, genSlots_seeded, genPrologue_seeded]

/-- After the slots `0..n`, `bb` is the word slot `n` wrote (R105). -/
theorem genSlots_succ_bb (n : Nat) (e : Engine) :
    (genSlots (n + 1) e).bb = readEntry (genSlots (n + 1) e).randrsl (BitVec.ofNat 8 n) :=
  (genSlot_output _ _).symm

/-- A step leaves in `bb` the word it wrote last (R24, R105). -/
theorem genStep_bb (e : Engine) : (genStep e).bb = readEntry (genStep e).randrsl 255#8 := by
  rw [genStep_def]
  exact genSlots_succ_bb 255 (genPrologue e)

@[simp] theorem genSteps_randcnt (n : Nat) (e : Engine) : (genSteps n e).randcnt = e.randcnt := by
  induction n with
  | zero => rfl
  | succ n ih => simp [genSteps, ih]

@[simp] theorem genSteps_seeded (n : Nat) (e : Engine) : (genSteps n e).seeded = e.seeded := by
  induction n with
  | zero => rfl
  | succ n ih => simp [genSteps, ih]

/-- A run of slots neither reads nor writes the cursor (R107). -/
theorem genSlots_setRandcnt (n c : Nat) (e : Engine) :
    genSlots n { e with randcnt := c } = { genSlots n e with randcnt := c } := by
  induction n with
  | zero => rfl
  | succ n ih => simp only [genSlots, ih]; rfl

/-- The cursor is its caller's: GEN_STEP neither reads nor writes it (R107). -/
theorem genStep_setRandcnt (c : Nat) (e : Engine) : genStep { e with randcnt := c } = { genStep e with randcnt := c } := by
  rw [genStep_def, genStep_def]
  exact genSlots_setRandcnt Config.randsiz c (genPrologue e)

end Sys2Proof.Machine
end

