-- ==== Sys2Proof/Laws/Extraction.lean ====
section
/-! SUPPORT. What a word take does, once, and what every take leaves unchanged. -/

namespace Sys2Proof.Machine

@[simp] theorem refill_seeded (e : Engine) : (refill e).seeded = e.seeded := by
  unfold refill; split <;> simp

/-- With words left there is no refill (R120). -/
theorem refill_of_pos {e : Engine} (h : e.randcnt ≠ 0) : refill e = e := by simp [refill, h]

/-- With an empty cursor one GEN_STEP runs and the cursor is full (R120). -/
theorem refill_of_zero {e : Engine} (h : e.randcnt = 0) : refill e = { genStep e with randcnt := 256 } := by
  simp [refill, h, Config.fullCursor]

/-- A take with words left (R121). -/
theorem takeWord_of_pos {e : Engine} (h : e.randcnt ≠ 0) :
    takeWord e = ⟨readEntry e.randrsl (BitVec.ofNat 8 (e.randcnt - 1)), { e with randcnt := e.randcnt - 1 }⟩ := by
  simp [takeWord, refill_of_pos h]

/-- A take with an empty cursor (R120, R121). -/
theorem takeWord_of_zero {e : Engine} (h : e.randcnt = 0) :
    takeWord e = ⟨readEntry (genStep e).randrsl 255#8, { genStep e with randcnt := 255 }⟩ := by
  simp [takeWord, refill_of_zero h]

@[simp] theorem takeWord_seeded (e : Engine) : (takeWord e).engine.seeded = e.seeded := by simp [takeWord]

/-- A take keeps an instance legal: the cursor in range, `bb` the last output word. -/
theorem takeWord_cursor {e : Engine} (h : e.randcnt ≤ 256) : (takeWord e).engine.randcnt ≤ 255 := by
  by_cases h0 : e.randcnt = 0
  · simp [takeWord_of_zero h0]
  · rw [takeWord_of_pos h0]; show e.randcnt - 1 ≤ 255; omega

@[simp] theorem takeWholeWords_seeded (q : Nat) (e : Engine) : (takeWholeWords q e).engine.seeded = e.seeded := by
  induction q generalizing e with
  | zero => rfl
  | succ q ih => simp [takeWholeWords, ih]

@[simp] theorem takeTwoByteTail_seeded (r : Nat) (e : Engine) : (takeTwoByteTail r e).engine.seeded = e.seeded := by
  unfold takeTwoByteTail; split <;> simp

@[simp] theorem takeOneByteTail_seeded (r : Nat) (e : Engine) : (takeOneByteTail r e).engine.seeded = e.seeded := by
  unfold takeOneByteTail; split <;> simp

@[simp] theorem takeBytes_seeded (n : Nat) (e : Engine) : (takeBytes n e).engine.seeded = e.seeded := by simp [takeBytes]

/-- The three outcomes of NEXT_WORD in one: Unseeded, or a word taken (R122). -/
theorem execNextWord_eq (s : State) :
    execNextWord s = if s.engine.seeded = true then
      respondOk (takeWord s.engine).value [] (s.setEngine (takeWord s.engine).engine) else raise .unseeded s := by
  cases h : s.engine.seeded <;> simp [execNextWord, h]

/-- NEXT_BYTES: Unseeded, InvalidArgument, or bytes taken (R123). -/
theorem execNextBytes_eq (n : Int) (s : State) :
    execNextBytes n s = if s.engine.seeded = true then
      (if n < 0 then raise .invalidArgument s
       else respondOk 0#32 (takeBytes n.toNat s.engine).value (s.setEngine (takeBytes n.toNat s.engine).engine))
      else raise .unseeded s := by
  cases h : s.engine.seeded <;> simp [execNextBytes, h]

end Sys2Proof.Machine
end

