-- ==== Sys2Proof/Laws/Ops.lean ====
section
/-! SUPPORT. One lemma per shared operation: everything it can answer. -/

namespace Sys2Proof.Machine

/-- An OK response: the state with one response more. -/
theorem respondOk_next {value : Word} {bytes : List Byte} {s t : State} (h : respondOk value bytes s = .next t) :
    t = s.addResponse ⟨.ok, value, bytes⟩ := by
  simpa [respondOk] using h.symm

/-- An error response: the state with one response more, nothing else changed. -/
theorem raise_next {status : Status} {s t : State} (h : raise status s = .next t) :
    t = s.addResponse ⟨status, 0#32, []⟩ := by
  simpa [raise] using h.symm

/-- A reset event: the elements as after reset, the inputs after it, the responses as they were. -/
theorem resetEvent_next {rest : List HostInput} {s t : State} (h : resetEvent rest s = .next t) :
    t.engine = Engine.afterReset ∧ t.inbox = rest ∧ t.outbox = s.outbox := by
  have : t = (s.setEngine Engine.afterReset).setInbox rest := by simpa [resetEvent] using h.symm
  subst this; simp

/-- What waiting for a payload can end in: no change, or a reset. -/
theorem awaitPayload_next {rest : List HostInput} {s t : State} (h : awaitPayload rest s = .next t) :
    (rest = [] ∧ t = s) ∨ ∃ more, rest = .reset :: more ∧ resetEvent more s = .next t := by
  unfold awaitPayload at h
  split at h
  · exact .inl ⟨rfl, by simpa using h.symm⟩
  · exact .inr ⟨_, rfl, h⟩
  · cases h

/-- What the arrival of a transaction can end in: an IllegalCommand response, a command run, or a wait. -/
theorem receive_next {t : Transaction} {rest : List HostInput} {s u : State} (h : receive t rest s = .next u) :
    (∃ why, decode t = .illegal why ∧ u = (s.setInbox rest).addResponse ⟨.illegalCommand, 0#32, []⟩) ∨
    (∃ i, decode t = .command i ∧ t.Complete ∧ exec i (s.setInbox rest) = .next u) ∨
    (∃ i, decode t = .command i ∧ ¬ t.Complete ∧ awaitPayload rest s = .next u) := by
  unfold receive at h
  split at h
  · exact .inl ⟨_, ‹_›, raise_next h⟩
  · split at h
    · exact .inr (.inl ⟨_, ‹_›, ‹_›, h⟩)
    · split at h
      · exact .inr (.inr ⟨_, ‹_›, ‹_›, h⟩)
      · cases h

/-- Everything one transition can do: wait, reset, answer IllegalCommand, run a command, or wait for a payload. -/
theorem deliver_next {s u : State} (h : deliver s = .next u) :
    (s.inbox = [] ∧ u = s) ∨
    (∃ rest, s.inbox = .reset :: rest ∧ resetEvent rest s = .next u) ∨
    (∃ t rest, s.inbox = .transaction t :: rest ∧ receive t rest s = .next u) := by
  unfold deliver at h
  split at h
  · exact .inl ⟨‹_›, by simpa using h.symm⟩
  · exact .inr (.inl ⟨_, ‹_›, h⟩)
  · exact .inr (.inr ⟨_, _, ‹_›, h⟩)

end Sys2Proof.Machine
end

