-- ==== Sys2Proof/Laws/Seeder.lean ====
section
/-! SUPPORT. What the parts of SEED leave unchanged. -/

namespace Sys2Proof.Machine

@[simp] theorem pack_mm (s : List Byte) (e : Engine) : (pack s e).mm = e.mm := by rw [pack]
@[simp] theorem pack_randrsl (s : List Byte) (e : Engine) : (pack s e).randrsl = packWords s Config.randsiz e.randrsl := by
  rw [pack]
@[simp] theorem clearAccumulators_mm (e : Engine) : (clearAccumulators e).mm = e.mm := rfl
@[simp] theorem clearAccumulators_randrsl (e : Engine) : (clearAccumulators e).randrsl = e.randrsl := rfl
@[simp] theorem clearAccumulators_aa (e : Engine) : (clearAccumulators e).aa = 0#32 := rfl
@[simp] theorem clearAccumulators_bb (e : Engine) : (clearAccumulators e).bb = 0#32 := rfl
@[simp] theorem clearAccumulators_cc (e : Engine) : (clearAccumulators e).cc = 0#32 := rfl

/-- A seed pass writes `mm` and nothing else of the state (R87, R88). -/
theorem seedGroups_frame (src : Engine → Block) (n : Nat) (p : Pass) :
    (seedGroups src n p).engine = { p.engine with mm := (seedGroups src n p).engine.mm } := by
  induction n with
  | zero => rfl
  | succ n ih => simp only [seedGroups, seedGroup]; rw [ih]

@[simp] theorem seedGroups_randrsl (src : Engine → Block) (n : Nat) (p : Pass) :
    (seedGroups src n p).engine.randrsl = p.engine.randrsl := by rw [seedGroups_frame]
@[simp] theorem seedGroups_aa (src : Engine → Block) (n : Nat) (p : Pass) :
    (seedGroups src n p).engine.aa = p.engine.aa := by rw [seedGroups_frame]
@[simp] theorem seedGroups_bb (src : Engine → Block) (n : Nat) (p : Pass) :
    (seedGroups src n p).engine.bb = p.engine.bb := by rw [seedGroups_frame]
@[simp] theorem seedGroups_cc (src : Engine → Block) (n : Nat) (p : Pass) :
    (seedGroups src n p).engine.cc = p.engine.cc := by rw [seedGroups_frame]

/-- A seed pass unfolded (R87). -/
theorem seedPass_def (src : Engine → Block) (p : Pass) : seedPass src p = seedGroups src Config.seedGroups p := by
  unfold seedPass; exact Eq.refl _

@[simp] theorem seedPass_randrsl (src : Engine → Block) (p : Pass) :
    (seedPass src p).engine.randrsl = p.engine.randrsl := by rw [seedPass_def, seedGroups_randrsl]
@[simp] theorem seedPass_aa (src : Engine → Block) (p : Pass) :
    (seedPass src p).engine.aa = p.engine.aa := by rw [seedPass_def, seedGroups_aa]
@[simp] theorem seedPass_bb (src : Engine → Block) (p : Pass) :
    (seedPass src p).engine.bb = p.engine.bb := by rw [seedPass_def, seedGroups_bb]
@[simp] theorem seedPass_cc (src : Engine → Block) (p : Pass) :
    (seedPass src p).engine.cc = p.engine.cc := by rw [seedPass_def, seedGroups_cc]

/-- A seed pass writes `mm` and nothing else of the state (R87, R88). -/
theorem seedPass_frame (src : Engine → Block) (p : Pass) :
    (seedPass src p).engine = { p.engine with mm := (seedPass src p).engine.mm } := by
  rw [seedPass_def]; exact seedGroups_frame src _ p

/-- The two passes of SEED over the packed seed (R80). -/
def seedPasses (s : List Byte) (e : Engine) : Engine :=
  (seedPass Engine.mm (seedPass Engine.randrsl ⟨prescramble, clearAccumulators (pack s e)⟩)).engine

@[simp] theorem seedPasses_aa (s : List Byte) (e : Engine) : (seedPasses s e).aa = 0#32 := by
  rw [seedPasses, seedPass_aa, seedPass_aa, clearAccumulators_aa]
@[simp] theorem seedPasses_bb (s : List Byte) (e : Engine) : (seedPasses s e).bb = 0#32 := by
  rw [seedPasses, seedPass_bb, seedPass_bb, clearAccumulators_bb]
@[simp] theorem seedPasses_cc (s : List Byte) (e : Engine) : (seedPasses s e).cc = 0#32 := by
  rw [seedPasses, seedPass_cc, seedPass_cc, clearAccumulators_cc]

/-- SEED in one equation: two GEN_STEPs over the passes, a full cursor, SEEDED (R80, R89, R90). -/
theorem seedEngine_def (s : List Byte) (e : Engine) :
    seedEngine s e = { genStep (genStep (seedPasses s e)) with randcnt := 256, seeded := true } := by
  simp only [seedEngine, seedPasses, setSeeded, Config.warmupSteps, genSteps, Config.fullCursor]

@[simp] theorem seedEngine_randcnt (s : List Byte) (e : Engine) : (seedEngine s e).randcnt = 256 := by
  rw [seedEngine_def]
@[simp] theorem seedEngine_seeded (s : List Byte) (e : Engine) : (seedEngine s e).seeded = true := by
  rw [seedEngine_def]

/-- After SEED two GEN_STEPs have been counted (R89). -/
@[simp] theorem seedEngine_cc (s : List Byte) (e : Engine) : (seedEngine s e).cc = 2#32 := by
  rw [seedEngine_def]
  show (genStep (genStep (seedPasses s e))).cc = 2#32
  rw [genStep_cc, genStep_cc, seedPasses_cc]
  decide

end Sys2Proof.Machine
end

