-- ==== Sys2Proof/Laws/Exec.lean ====
section
/-! SUPPORT. Every command ends in a next state with one response more and the host's inputs as they were. -/

namespace Sys2Proof.Machine

/-- INSPECT: Unseeded, or the element (R140). -/
theorem execInspect_eq (region : Region) (index : Index) (s : State) :
    execInspect region index s = if region ≠ .status ∧ s.engine.seeded = false then raise .unseeded s
      else respondOk (readRegion region index s.engine) [] s := rfl

/-- Every command completes with exactly one response (R69, R150), and leaves the inputs to come alone. -/
theorem exec_answers (i : Instr) (s : State) :
    ∃ e r, exec i s = .next ((s.setEngine e).addResponse r) := by
  cases i with
  | seed bytes => exact ⟨_, _, rfl⟩
  | nextWord =>
    simp only [exec, execNextWord_eq]
    split
    · exact ⟨_, _, rfl⟩
    · exact ⟨s.engine, _, rfl⟩
  | nextBytes count =>
    simp only [exec, execNextBytes_eq]
    split
    · split
      · exact ⟨s.engine, _, rfl⟩
      · exact ⟨_, _, rfl⟩
    · exact ⟨s.engine, _, rfl⟩
  | inspect region index =>
    simp only [exec, execInspect_eq]
    split
    · exact ⟨s.engine, _, rfl⟩
    · exact ⟨s.engine, _, rfl⟩

end Sys2Proof.Machine
end

