-- ==== Sys2Proof/Laws/Fast.lean ====
section
/-! SUPPORT. The same computations on a block packed into one bit vector, for tests: the kernel evaluates them quickly.
`Fast.engine` reads the packed form as the model's state, and every operation is proved to agree with the model's. -/

namespace Sys2Proof.Machine

/-- A block packed: entry `i` is bits `32i+31 : 32i`. -/
abbrev PackedBlock := BitVec 8192

/-- Entry `i` of a packed block. -/
def packedRead (b : PackedBlock) (i : Index) : Word := b.extractLsb' (32 * i.toNat) 32

/-- A packed block with entry `i` replaced. -/
def packedWrite (b : PackedBlock) (i : Index) (w : Word) : PackedBlock :=
  b ^^^ ((w ^^^ packedRead b i).setWidth 8192 <<< (32 * i.toNat))

/-- The block a packed block stands for. -/
def unpackBlock (b : PackedBlock) : Block := Vector.ofFn fun k : Fin 256 => packedRead b (BitVec.ofFin k)

theorem readEntry_unpackBlock (b : PackedBlock) (i : Index) : readEntry (unpackBlock b) i = packedRead b i := by
  simp [readEntry, unpackBlock]

theorem packedRead_packedWrite (b : PackedBlock) (i j : Index) (w : Word) :
    packedRead (packedWrite b i w) j = if i = j then w else packedRead b j := by
  have hi : i.toNat < 256 := i.isLt
  have hj : j.toNat < 256 := j.isLt
  apply BitVec.eq_of_getLsbD_eq
  intro k hk
  by_cases h : i = j
  · subst h
    simp only [packedRead, packedWrite, BitVec.getLsbD_extractLsb', BitVec.getLsbD_xor, BitVec.getLsbD_shiftLeft,
      BitVec.getLsbD_setWidth]
    simp [hk, show 32 * i.toNat + k < 8192 by omega, show k < 8192 by omega]
    cases b[32 * i.toNat + k] <;> simp
  · have hne : i.toNat ≠ j.toNat := fun e => h (BitVec.eq_of_toNat_eq e)
    rw [if_neg h]
    simp only [packedRead, packedWrite, BitVec.getLsbD_extractLsb', BitVec.getLsbD_xor, BitVec.getLsbD_shiftLeft,
      BitVec.getLsbD_setWidth]
    by_cases hlt : 32 * j.toNat + k < 32 * i.toNat
    · simp [hlt]
    · have hout : 32 ≤ 32 * j.toNat + k - 32 * i.toNat := by omega
      simp [show ¬ 32 * j.toNat + k - 32 * i.toNat < 32 by omega,
        BitVec.getLsbD_of_ge w _ hout]

theorem writeEntry_unpackBlock (b : PackedBlock) (i : Index) (w : Word) :
    writeEntry (unpackBlock b) i w = unpackBlock (packedWrite b i w) := by
  apply block_ext
  intro j
  rw [readEntry_writeEntry, readEntry_unpackBlock, readEntry_unpackBlock, packedRead_packedWrite]

/-- The state with packed blocks. -/
structure FastEngine where
  mm      : PackedBlock
  randrsl : PackedBlock
  aa      : Word
  bb      : Word
  cc      : Word
  randcnt : Nat
  seeded  : Bool
  deriving DecidableEq, Repr

/-- The model's state a packed state stands for. -/
def FastEngine.unpack (e : FastEngine) : Engine :=
  ⟨unpackBlock e.mm, unpackBlock e.randrsl, e.aa, e.bb, e.cc, e.randcnt, e.seeded⟩

/-- All elements 0, unseeded. -/
def fastZero : FastEngine := ⟨0#8192, 0#8192, 0#32, 0#32, 0#32, 0, false⟩

theorem fastZero_unpack : fastZero.unpack = Engine.afterReset := by
  have : unpackBlock 0#8192 = Vector.replicate 256 0#32 := by
    apply Vector.ext; intro k hk; simp [unpackBlock, packedRead]
  simp [fastZero, FastEngine.unpack, Engine.afterReset, this]

/-! ### GEN_STEP -/

def fastPrologue (e : FastEngine) : FastEngine := { e with cc := e.cc + 1#32, bb := e.bb + (e.cc + 1#32) }

def fastSlot (i : Index) (e : FastEngine) : FastEngine :=
  let x := packedRead e.mm i
  let aa := packedRead e.mm (partnerIndex i) + slotMix i e.aa
  let y := packedRead e.mm (firstIndirect x) + aa + e.bb
  let mm := packedWrite e.mm i y
  let bb := packedRead mm (secondIndirect y) + x
  { e with mm := mm, aa := aa, bb := bb, randrsl := packedWrite e.randrsl i bb }

def fastSlots : Nat → FastEngine → FastEngine
  | 0, e => e
  | n + 1, e => fastSlot (BitVec.ofNat 8 n) (fastSlots n e)

@[irreducible] def fastStep (e : FastEngine) : FastEngine := fastSlots Config.randsiz (fastPrologue e)

theorem fastSlot_unpack (i : Index) (e : FastEngine) : genSlot i e.unpack = (fastSlot i e).unpack := by
  simp [genSlot, fastSlot, FastEngine.unpack, readEntry_unpackBlock, writeEntry_unpackBlock]

theorem fastSlots_unpack (n : Nat) (e : FastEngine) : genSlots n e.unpack = (fastSlots n e).unpack := by
  induction n with
  | zero => rfl
  | succ n ih => simp only [genSlots, fastSlots, ih, fastSlot_unpack]

theorem fastStep_unpack (e : FastEngine) : genStep e.unpack = (fastStep e).unpack := by
  rw [genStep_def]
  unfold fastStep
  exact fastSlots_unpack _ (fastPrologue e)

/-! ### SEED -/

def fastPackWords (s : List Byte) : Nat → PackedBlock → PackedBlock
  | 0, b => b
  | n + 1, b => packedWrite (fastPackWords s n b) (BitVec.ofNat 8 n) (packWord s n)

theorem fastPackWords_unpack (s : List Byte) (n : Nat) (b : PackedBlock) :
    packWords s n (unpackBlock b) = unpackBlock (fastPackWords s n b) := by
  induction n with
  | zero => rfl
  | succ n ih => simp only [packWords, fastPackWords, ih, writeEntry_unpackBlock]

/-- PACK over a packed block. -/
@[irreducible] def fastPack (s : List Byte) (b : PackedBlock) : PackedBlock := fastPackWords s Config.randsiz b

theorem fastPack_unpack (s : List Byte) (e : FastEngine) :
    pack s e.unpack = FastEngine.unpack { e with randrsl := fastPack s e.randrsl } := by
  have h := fastPackWords_unpack s Config.randsiz e.randrsl
  unfold pack fastPack
  generalize Config.randsiz = n at h
  simp only [FastEngine.unpack, h]

def fastAdd (src : PackedBlock) (i : Index) (r : Scratch) : Scratch :=
  ⟨r.a + packedRead src i, r.b + packedRead src (i + 1#8), r.c + packedRead src (i + 2#8), r.d + packedRead src (i + 3#8),
   r.e + packedRead src (i + 4#8), r.f + packedRead src (i + 5#8), r.g + packedRead src (i + 6#8),
   r.h + packedRead src (i + 7#8)⟩

def fastStore (b : PackedBlock) (i : Index) (r : Scratch) : PackedBlock :=
  packedWrite (packedWrite (packedWrite (packedWrite (packedWrite (packedWrite (packedWrite (packedWrite b
    i r.a) (i + 1#8) r.b) (i + 2#8) r.c) (i + 3#8) r.d) (i + 4#8) r.e) (i + 5#8) r.f) (i + 6#8) r.g) (i + 7#8) r.h

/-- A pass with packed blocks. -/
structure FastPass where
  scratch : Scratch
  engine  : FastEngine

def FastPass.unpack (p : FastPass) : Pass := ⟨p.scratch, p.engine.unpack⟩

def fastGroup (src : FastEngine → PackedBlock) (j : Nat) (p : FastPass) : FastPass :=
  let i := BitVec.ofNat 8 (8 * j)
  let scratch := seedMix (fastAdd (src p.engine) i p.scratch)
  ⟨scratch, { p.engine with mm := fastStore p.engine.mm i scratch }⟩

def fastGroups (src : FastEngine → PackedBlock) : Nat → FastPass → FastPass
  | 0, p => p
  | n + 1, p => fastGroup src n (fastGroups src n p)

@[irreducible] def fastPass (src : FastEngine → PackedBlock) (p : FastPass) : FastPass := fastGroups src Config.seedGroups p

theorem fastGroup_unpack {src : Engine → Block} {fsrc : FastEngine → PackedBlock}
    (h : ∀ e : FastEngine, src e.unpack = unpackBlock (fsrc e)) (j : Nat) (p : FastPass) :
    seedGroup src j p.unpack = (fastGroup fsrc j p).unpack := by
  have hs : addSource (src p.engine.unpack) (BitVec.ofNat 8 (8 * j)) p.scratch
      = fastAdd (fsrc p.engine) (BitVec.ofNat 8 (8 * j)) p.scratch := by
    simp only [h, addSource, fastAdd, readEntry_unpackBlock]
  simp only [seedGroup, fastGroup, FastPass.unpack, hs]
  simp only [FastEngine.unpack, storeScratch, fastStore, writeEntry_unpackBlock]

theorem fastPass_unpack {src : Engine → Block} {fsrc : FastEngine → PackedBlock}
    (h : ∀ e : FastEngine, src e.unpack = unpackBlock (fsrc e)) (p : FastPass) :
    seedPass src p.unpack = (fastPass fsrc p).unpack := by
  unfold seedPass fastPass
  generalize Config.seedGroups = n
  induction n with
  | zero => rfl
  | succ n ih => simp only [seedGroups, fastGroups, ih, fastGroup_unpack h]

/-- What SEED does before its passes, from the reset state. -/
def fastStart (s : List Byte) : FastPass := ⟨prescramble, { fastZero with randrsl := fastPack s 0#8192 }⟩

theorem fastStart_unpack (s : List Byte) :
    (⟨prescramble, clearAccumulators (pack s Engine.afterReset)⟩ : Pass) = (fastStart s).unpack := by
  rw [← fastZero_unpack, fastPack_unpack]
  simp only [clearAccumulators, fastStart, FastPass.unpack, FastEngine.unpack, fastZero]

/-- The passes of SEED from the reset state, before the warm-up. -/
def fastPasses (s : List Byte) : FastPass := fastPass FastEngine.mm (fastPass FastEngine.randrsl (fastStart s))

theorem fastPasses_unpack (s : List Byte) :
    seedPass Engine.mm (seedPass Engine.randrsl ⟨prescramble, clearAccumulators (pack s Engine.afterReset)⟩)
      = (fastPasses s).unpack := by
  rw [fastStart_unpack, fastPass_unpack (src := Engine.randrsl) (fsrc := FastEngine.randrsl) (fun _ => rfl),
    fastPass_unpack (src := Engine.mm) (fsrc := FastEngine.mm) (fun _ => rfl), fastPasses]

/-- The end of SEED (R90). -/
def fastFinish (e : FastEngine) : FastEngine := { e with randcnt := 256, seeded := true }

theorem fastFinish_unpack (e : FastEngine) :
    setSeeded { e.unpack with randcnt := Config.fullCursor } = (fastFinish e).unpack := rfl

/-- SEED from the reset state. -/
def fastSeed (s : List Byte) : FastEngine := fastFinish (fastStep (fastStep (fastPasses s).engine))

theorem fastSeed_unpack (s : List Byte) : seedEngine s Engine.afterReset = (fastSeed s).unpack := by
  have hwarm : ∀ e : FastEngine, genSteps Config.warmupSteps e.unpack = (fastStep (fastStep e)).unpack := fun e => by
    rw [← fastStep_unpack, ← fastStep_unpack, Config.warmupSteps, genSteps, genSteps, genSteps]
  rw [fastSeed, ← fastFinish_unpack, ← hwarm]
  unfold seedEngine
  simp only [fastPasses_unpack, FastPass.unpack]

/-- TAKE_WORD with words left, on a packed state. -/
theorem takeWord_unpack {e : FastEngine} (h : e.randcnt ≠ 0) :
    takeWord e.unpack = ⟨packedRead e.randrsl (BitVec.ofNat 8 (e.randcnt - 1)),
      FastEngine.unpack { e with randcnt := e.randcnt - 1 }⟩ := by
  rw [takeWord_of_pos (e := e.unpack) h]
  simp only [FastEngine.unpack, readEntry_unpackBlock]

/-- TAKE_WORD with an empty cursor, on a packed state. -/
theorem takeWord_unpack_refill {e : FastEngine} (h : e.randcnt = 0) :
    takeWord e.unpack = ⟨packedRead (fastStep e).randrsl 255#8, FastEngine.unpack { fastStep e with randcnt := 255 }⟩ := by
  rw [takeWord_of_zero (e := e.unpack) h, fastStep_unpack]
  simp only [FastEngine.unpack, readEntry_unpackBlock]

end Sys2Proof.Machine
end

