-- ==== Sys2Proof/Laws/PerInstr.lean ====
section
/-! SUPPORT. Statements about every command as syntax, one lemma per constructor. -/

namespace Sys2Proof.Laws.EncodeForm

/-- The transaction of a well-formed command has OPC as the opcode map gives it (R62), RSV = 0 (R63), and exactly the
payload its command word asks for (R60, R71). -/
def Statement (i : Instr) : Prop :=
  i.wellFormed = true →
    opcField (encode i).word = i.opcode ∧ rsvField (encode i).word = 0#24 ∧ (encode i).Complete

theorem seed (bytes : List Byte) : Statement (.seed bytes) := by
  intro h
  have hl : bytes.length < 2 ^ 32 := by simpa [Instr.wellFormed] using h
  refine ⟨by simp [encode], by simp [encode], ?_⟩
  have : bytes.length % 4294967296 = bytes.length := Nat.mod_eq_of_lt hl
  simp [Transaction.Complete, payloadLength, encode, Instr.payload, Instr.arg, Instr.opcode, this]

theorem nextWord : Statement .nextWord := by
  intro _
  exact ⟨by simp [encode], by simp [encode], by simp [Transaction.Complete, payloadLength, encode, Instr.payload, Instr.opcode]⟩

theorem nextBytes (count : Int) : Statement (.nextBytes count) := by
  intro _
  exact ⟨by simp [encode], by simp [encode], by simp [Transaction.Complete, payloadLength, encode, Instr.payload, Instr.opcode]⟩

theorem inspect (region : Region) (index : Index) : Statement (.inspect region index) := by
  intro _
  exact ⟨by simp [encode], by simp [encode], by simp [Transaction.Complete, payloadLength, encode, Instr.payload, Instr.opcode]⟩

end Sys2Proof.Laws.EncodeForm
end

