-- ==== Sys2Proof/Tests/Slice0.lean ====
section
/-! SUPPORT. Tests against the spec's own vectors (spec/95_test_vectors.md, named V-...), the WellFormed smoke tests, and for
each obligation with hypotheses a witness that meets them. -/

namespace Sys2Proof.Tests

open Sys2Proof Sys2Proof.Machine

/-! ### WellFormed: an ill-formed term for each check (R64, R66, R67) -/

theorem test_wf_seed_too_long (bytes : List Byte) (h : bytes.length = 2 ^ 32) : (Instr.seed bytes).wellFormed = false := by
  simp [Instr.wellFormed, h]
theorem test_wf_count_too_big : (Instr.nextBytes (2 ^ 31)).wellFormed = false := by decide
theorem test_wf_count_too_small : (Instr.nextBytes (-2 ^ 31 - 1)).wellFormed = false := by decide
theorem test_wf_index_not_zero : (Instr.inspect .aa 1#8).wellFormed = false := by decide
theorem test_wf_accepts : (Instr.seed [1#8]).wellFormed = true ∧ Instr.nextWord.wellFormed = true ∧
    (Instr.nextBytes (-2 ^ 31)).wellFormed = true ∧ (Instr.inspect .mm 255#8).wellFormed = true := by decide

/-! ### Decoding (V-DEC, V-INS, V-NB-NEG; R74's table of words) -/

theorem test_decode_seed : decode ⟨0x0100000000000003#64, [0x61#8, 0x62#8, 0x63#8]⟩ =
    .command (.seed [0x61#8, 0x62#8, 0x63#8]) := by decide
theorem test_seed_longest_payload : payloadLength 0x01000000ffffffff#64 = 4294967295 := by decide
theorem test_decode_nextWord : decodeTableWord 64 0x0200000000000000 = some .nextWord := by decide
theorem test_decode_nextBytes : decodeTableWord 64 0x030000007fffffff = some (.nextBytes 2147483647) := by decide
theorem test_decode_nextBytes_negative : decodeTableWord 64 0x03000000ffffffff = some (.nextBytes (-1)) := by decide
theorem test_decode_inspect_randrsl : decodeTableWord 64 0x04000000000001ff = some (.inspect .randrsl 255#8) := by decide
theorem test_decode_inspect_status : decodeTableWord 64 0x0400000000000600 = some (.inspect .status 0#8) := by decide
theorem test_decode_illegal :
    decode ⟨0x0000000000000000#64, []⟩ = .illegal .reservedOpcode ∧
    decode ⟨0xff00000000000000#64, []⟩ = .illegal .reservedOpcode ∧
    decode ⟨0x0500000000000000#64, []⟩ = .illegal .reservedOpcode ∧
    decode ⟨0x0201000000000000#64, []⟩ = .illegal .reservedBits ∧
    decode ⟨0x0200000000000001#64, []⟩ = .illegal .nextWordArgument ∧
    decode ⟨0x0300000100000004#64, []⟩ = .illegal .reservedBits ∧
    decode ⟨0x0100000100000000#64, [1#8]⟩ = .illegal .reservedBits := by decide
theorem test_decode_illegal_inspect :
    decode ⟨0x0400000000000700#64, []⟩ = .illegal .inspectRegion ∧
    decode ⟨0x0400000000000f00#64, []⟩ = .illegal .inspectRegion ∧
    decode ⟨0x0400000000000201#64, []⟩ = .illegal .inspectIndex ∧
    decode ⟨0x0400000000001000#64, []⟩ = .illegal .inspectZeroField ∧
    decodeWith false ⟨0x0400000000000600#64, []⟩ = .illegal .inspectAbsent := by decide
theorem test_encode_words : (encode (.nextBytes (-7))).word = 0x03000000fffffff9#64 ∧
    (encode (.inspect .cc 0#8)).word = 0x0400000000000400#64 ∧ (encode .nextWord).word = 0x0200000000000000#64 ∧
    (encode (.seed [0x61#8, 0x62#8, 0x63#8])).word = 0x0100000000000003#64 := by decide

/-! ### The seeder (V-MIX, V-PACK, V-SEED) -/

theorem test_mix : seedMix goldenScratch = ⟨0x3f879d38#32, 0x0e56dea4#32, 0x616a0f84#32, 0x7e4c685d#32,
    0x41d767b9#32, 0x0b360cdb#32, 0xf273b188#32, 0x11273859#32⟩ ∧
    seedMix ⟨0, 0, 0, 0, 0, 0, 0, 0⟩ = ⟨0, 0, 0, 0, 0, 0, 0, 0⟩ := by decide
theorem test_pack : packWord [1#8, 2#8, 3#8, 4#8, 5#8] 0 = 0x04030201#32 ∧
    packWord [1#8, 2#8, 3#8, 4#8, 5#8] 1 = 0x00000005#32 ∧ packWord [1#8, 2#8, 3#8, 4#8, 5#8] 2 = 0#32 ∧
    packWord [0x80#8] 0 = 0x00000080#32 := by decide

/-- The packed state of `SEED ""`, as V-SEED-1 and V-INS give it: the accumulators, and the first words of the published
vector V-PUB-1, the last output words and `mm[0]`. -/
theorem fastSeed_empty : (fastSeed []).aa = 0xea1b3782#32 ∧ (fastSeed []).bb = 0x7a68710f#32 ∧ (fastSeed []).cc = 2#32 ∧
    (List.ofFn fun k : Fin 8 => packedRead (fastSeed []).randrsl (BitVec.ofNat 8 k)) =
      [0xf650e4c8#32, 0xe448e96d#32, 0x98db2fb4#32, 0xf5fad54f#32, 0x433f1afb#32, 0xedec154a#32, 0xd8370487#32, 0x46ca4f9a#32] ∧
    packedRead (fastSeed []).randrsl 255#8 = 0x7a68710f#32 ∧ packedRead (fastSeed []).randrsl 254#8 = 0x6554abda#32 ∧
    packedRead (fastSeed []).mm 0#8 = 0x5629cc45#32 := by decide +kernel

/-- The state of the elements after `SEED ""` from reset. -/
def afterEmptySeed : Engine := seedEngine [] Engine.afterReset

/-- V-SEED-1: `SEED ""` leaves these. -/
theorem test_seed_empty : afterEmptySeed.aa = 0xea1b3782#32 ∧ afterEmptySeed.bb = 0x7a68710f#32 ∧
    afterEmptySeed.cc = 2#32 ∧ afterEmptySeed.randcnt = 256 ∧ afterEmptySeed.seeded = true := by
  rw [afterEmptySeed, fastSeed_unpack]
  exact ⟨fastSeed_empty.1, fastSeed_empty.2.1, fastSeed_empty.2.2.1, by decide +kernel⟩

/-- V-PUB-1: the first words of the output block. -/
theorem test_seed_published_vector : readEntry afterEmptySeed.randrsl 0#8 = 0xf650e4c8#32 ∧
    readEntry afterEmptySeed.randrsl 1#8 = 0xe448e96d#32 ∧ readEntry afterEmptySeed.randrsl 7#8 = 0x46ca4f9a#32 := by
  have h := fastSeed_empty.2.2.2.1
  simp only [List.ofFn_succ, List.ofFn_zero, List.cons.injEq] at h
  rw [afterEmptySeed, fastSeed_unpack]
  simp only [FastEngine.unpack, readEntry_unpackBlock]
  exact ⟨h.1, h.2.1, h.2.2.2.2.2.2.2.1⟩

/-- V-SEED-3: the accumulators and the first words of the stream of `SEED "abc"`. -/
theorem test_seed_abc : (fastSeed [0x61#8, 0x62#8, 0x63#8]).aa = 0x32075c05#32 ∧
    (fastSeed [0x61#8, 0x62#8, 0x63#8]).bb = 0x11009cfb#32 ∧
    packedRead (fastSeed [0x61#8, 0x62#8, 0x63#8]).randrsl 252#8 = 0x3602cf69#32 := by decide +kernel

/-! ### GEN_STEP (V-GEN) -/

/-- V-GEN-1: one step from all zero. -/
theorem test_gen_zero : (fastStep fastZero).aa = 0xd4caab06#32 ∧ (fastStep fastZero).bb = 2#32 ∧
    (fastStep fastZero).cc = 1#32 ∧ packedRead (fastStep fastZero).mm 133#8 = 0x26998#32 ∧
    packedRead (fastStep fastZero).randrsl 250#8 = 0xb1030acb#32 := by decide +kernel

/-- The same through the model's step. -/
theorem test_gen_zero_model : (genStep Engine.afterReset).aa = 0xd4caab06#32 := by
  rw [← fastZero_unpack, fastStep_unpack]; exact test_gen_zero.1

/-- V-GEN-3: one step with `aa = 1`. -/
theorem test_gen_aa_one : (fastStep { fastZero with aa := 1#32 }).aa = 0xdb6b545b#32 ∧
    (fastStep { fastZero with aa := 1#32 }).bb = 0xf2b2affb#32 ∧
    packedRead (fastStep { fastZero with aa := 1#32 }).mm 6#8 = 0x440468b5#32 := by decide +kernel

/-- V-GEN-4: the step after the first block of `SEED ""`. -/
theorem fastStep_after_empty : (fastStep { fastSeed [] with randcnt := 0 }).cc = 3#32 ∧
    (fastStep { fastSeed [] with randcnt := 0 }).aa = 0xc1a4b279#32 ∧
    packedRead (fastStep { fastSeed [] with randcnt := 0 }).randrsl 255#8 = 0x4bb5af29#32 ∧
    packedRead (fastStep { fastSeed [] with randcnt := 0 }).randrsl 0#8 = 0x82ac484f#32 := by decide +kernel

/-! ### Extraction (V-NW-1, V-NB-3) -/

/-- An instance after `SEED ""` with the cursor at `n`. -/
def emptySeedAt (n : Nat) : State := ⟨{ afterEmptySeed with randcnt := n }, [], []⟩

theorem emptySeedAt_engine (n : Nat) : (emptySeedAt n).engine = FastEngine.unpack { fastSeed [] with randcnt := n } := by
  simp only [emptySeedAt, afterEmptySeed, fastSeed_unpack]; rfl

theorem emptySeedAt_seeded (n : Nat) : (emptySeedAt n).engine.seeded = true := by rw [emptySeedAt_engine]; rfl

/-- The first word of the stream, and the state its take leaves. -/
theorem takeWord_emptySeed : takeWord (emptySeedAt 256).engine = ⟨0x7a68710f#32, (emptySeedAt 255).engine⟩ := by
  rw [emptySeedAt_engine, emptySeedAt_engine, takeWord_unpack (e := { fastSeed [] with randcnt := 256 }) (by simp)]
  have h := fastSeed_empty.2.2.2.2.1
  exact congrArg (fun w => Taken.mk w _) h

/-- The second word of the stream. -/
theorem takeWord_emptySeed_second : takeWord (emptySeedAt 255).engine = ⟨0x6554abda#32, (emptySeedAt 254).engine⟩ := by
  rw [emptySeedAt_engine, emptySeedAt_engine, takeWord_unpack (e := { fastSeed [] with randcnt := 255 }) (by simp)]
  have h := fastSeed_empty.2.2.2.2.2.1
  exact congrArg (fun w => Taken.mk w _) h

/-- V-NW-1, call 1. -/
theorem test_nextWord_first : exec .nextWord (emptySeedAt 256) =
    .next ⟨(emptySeedAt 255).engine, [], [⟨.ok, 0x7a68710f#32, []⟩]⟩ := by
  simp only [exec, execNextWord_eq, if_pos (emptySeedAt_seeded 256), takeWord_emptySeed]; rfl

/-- V-NW-1, call 257: the empty cursor refills. -/
theorem test_nextWord_refill : (takeWord (emptySeedAt 0).engine).value = 0x4bb5af29#32 ∧
    (takeWord (emptySeedAt 0).engine).engine.randcnt = 255 ∧ (takeWord (emptySeedAt 0).engine).engine.cc = 3#32 := by
  rw [emptySeedAt_engine, takeWord_unpack_refill (e := { fastSeed [] with randcnt := 0 }) rfl]
  exact ⟨fastStep_after_empty.2.2.1, rfl, fastStep_after_empty.1⟩

/-- V-NB-3, n = 3: the low half of one word and the low byte of the next. -/
theorem test_nextBytes_three : exec (.nextBytes 3) (emptySeedAt 256) =
    .next ⟨(emptySeedAt 254).engine, [], [⟨.ok, 0#32, [0x71#8, 0x0f#8, 0xda#8]⟩]⟩ := by
  have h : takeBytes 3 (emptySeedAt 256).engine = ⟨[0x71#8, 0x0f#8, 0xda#8], (emptySeedAt 254).engine⟩ := by
    simp only [takeBytes, takeWholeWords, takeTwoByteTail, takeOneByteTail, Nat.reduceDiv, Nat.reduceMod, Nat.reduceLeDiff,
      if_true, Nat.reduceSub, takeWord_emptySeed, takeWord_emptySeed_second]
    rfl
  simp only [exec, execNextBytes_eq, if_pos (emptySeedAt_seeded 256), Int.reduceLT, if_false, Int.reduceToNat, h]; rfl

/-- V-NB-3, n = 4: a whole word, most significant byte first. -/
theorem test_whole_word_bytes : wholeWordBytes 0x7a68710f#32 = [0x7a#8, 0x68#8, 0x71#8, 0x0f#8] ∧
    twoByteTail 0x7a68710f#32 = [0x71#8, 0x0f#8] ∧ oneByteTail 0x7a68710f#32 = [0x0f#8] := by decide

/-- `W(1030) = 258` (V-NB-LONG). -/
theorem test_words_taken : wordsTaken 1030 = 258 ∧ wordsTaken 2147483647 = 536870913 ∧
    [0, 1, 2, 3, 4, 5, 6, 7, 8, 9].map wordsTaken = [0, 1, 1, 2, 1, 2, 2, 3, 2, 3] := by decide

/-! ### INSPECT, statuses, the host interface (P4) -/

theorem test_inspect_status_unseeded : exec (.inspect .status 0#8) State.reset =
    .next ⟨Engine.afterReset, [], [⟨.ok, 0#32, []⟩]⟩ := by rfl
theorem test_inspect_cc_unseeded : exec (.inspect .cc 0#8) State.reset =
    .next ⟨Engine.afterReset, [], [⟨.unseeded, 0#32, []⟩]⟩ := by rfl
theorem test_nextBytes_priority : exec (.nextBytes (-1)) State.reset =
    .next ⟨Engine.afterReset, [], [⟨.unseeded, 0#32, []⟩]⟩ := by rfl
theorem test_status_codes : [Status.ok, .invalidArgument, .illegalCommand, .unseeded].map Status.code = [0#2, 1#2, 2#2, 3#2] := by
  decide

/-- P4 line 3: an Illegal word before any SEED. -/
theorem test_step_illegal : step (State.reset.offer (.transaction ⟨0x0200000000000001#64, []⟩)) =
    .next ⟨Engine.afterReset, [], [⟨.illegalCommand, 0#32, []⟩]⟩ := by rfl
/-- P4 line 1, through the placed word. -/
theorem test_step_placed_word : step (State.reset.withFetchWord 64 0x0200000000000000) =
    .next ⟨Engine.afterReset, [], [⟨.unseeded, 0#32, []⟩]⟩ := by rfl
/-- A whole SEED runs as the first command after reset. -/
theorem test_step_seed : step (State.reset.withFetchWord 64 0x0100000000000000) =
    .next ⟨afterEmptySeed, [], [⟨.ok, 0#32, []⟩]⟩ := by
  simp only [step, deliver, State.withFetchWord, State.sendNext, State.setInbox_inbox, receive,
    show decode (tableTransaction 64 0x0100000000000000) = .command (.seed []) by decide]
  rw [if_pos (by decide)]; exact Eq.refl _
theorem test_platform_no_instance : (Platform.reset 2).stepAt 2 = .refused .noSuchInstance := by rfl

/-! ### Witnesses: for each obligation with hypotheses, something that meets them -/

/-- A seeded instance with the cursor at `n`. -/
def sample (n : Nat) (inbox : List HostInput) : State := ⟨{ Engine.afterReset with randcnt := n, seeded := true }, inbox, []⟩

/-- A legal command word that waits for three payload bytes, with two of them. -/
def partSeed : Transaction := ⟨0x0100000000000003#64, [1#8, 2#8]⟩

/-- An Illegal transaction (RSV set). -/
def badWord : Transaction := ⟨0x0201000000000000#64, []⟩

/-- A whole transaction. -/
def goodWord : Transaction := ⟨0x0200000000000000#64, []⟩

theorem badWord_illegal : CommandIsIllegal badWord := ⟨.reservedBits, by decide⟩
theorem goodWord_complete : goodWord.Complete := by decide

theorem witness_resetEvent : (sample 3 [.reset]).inbox = .reset :: [] ∧
    (sample 3 [.transaction partSeed, .reset]).inbox = .transaction partSeed :: .reset :: [] ∧
    decode partSeed = .command (.seed [1#8, 2#8]) ∧ partSeed.payload.length < payloadLength partSeed.word := by decide
theorem witness_stepRuns : (sample 3 [.transaction goodWord]).inbox = .transaction goodWord :: [] ∧
    decode goodWord = .command .nextWord ∧ goodWord.Complete ∧ decodeTableWord 64 0x0200000000000000 = some .nextWord := by decide
theorem witness_partTransaction_waits : decode partSeed = .command (.seed [1#8, 2#8]) ∧
    (sample 3 [.transaction partSeed]).inbox = [.transaction partSeed] ∧
    partSeed.payload.length < payloadLength partSeed.word := by decide
theorem witness_partTransaction_overlaps : (sample 3 [.transaction partSeed, .transaction goodWord]).inbox =
    .transaction partSeed :: .transaction goodWord :: [] := by decide
theorem witness_partTransaction_surplus : decode ⟨0x0200000000000000#64, [7#8]⟩ = .command .nextWord ∧
    payloadLength 0x0200000000000000#64 < [7#8].length := by decide
theorem witness_laterInputs : ∃ u, (sample 3 [.transaction goodWord]).inbox = .transaction goodWord :: [] ∧
    (∀ t, HostInput.transaction goodWord = .transaction t → CommandIsIllegal t ∨ t.Complete) ∧
    step (sample 3 [.transaction goodWord]) = .next u :=
  ⟨_, rfl, fun t h => by cases h; exact .inr goodWord_complete, rfl⟩
theorem witness_decodeOfEncode : (Instr.inspect .randrsl 255#8).wellFormed = true ∧ (Instr.nextBytes (2 ^ 31 - 1)).wellFormed = true ∧
    (Instr.nextBytes (-2 ^ 31)).wellFormed = true ∧ (Instr.seed []).wellFormed = true := by decide
theorem witness_encodeOfDecode : goodWord.Complete ∧ decode goodWord = .command .nextWord := by decide
theorem witness_operands_inspect : decode ⟨commandWord 0x04#8 0x1ff#32, []⟩ = .command (.inspect .randrsl 255#8) := by decide
theorem witness_illegalWord : (sample 3 [.transaction badWord]).inbox = .transaction badWord :: [] ∧ CommandIsIllegal badWord :=
  ⟨rfl, badWord_illegal⟩
theorem witness_reservedBits : (sample 3 [.transaction badWord]).inbox = .transaction badWord :: [] ∧
    rsvField badWord.word ≠ 0#24 := by decide
theorem witness_nextWordArgument : (1#32 : Word) ≠ 0#32 ∧
    (sample 3 [.transaction ⟨commandWord 0x02#8 1#32, []⟩]).inbox = .transaction ⟨commandWord 0x02#8 1#32, []⟩ :: [] := by decide
theorem witness_withoutInspect : opcField 0x0400000000000600#64 = 0x04#8 ∧ opcField 0x0200000000000000#64 ≠ 0x04#8 := by decide
theorem witness_seedTruncation : (List.replicate 1024 1#8).take 1024 = (List.replicate 1025 1#8).take 1024 := by
  rw [List.take_replicate, List.take_replicate]; exact Eq.refl _
theorem witness_seedPadding : ([1#8] : List Byte).length < 1024 ∧ (List.replicate 1023 1#8).length < 1024 := by
  refine ⟨by decide, ?_⟩
  rw [List.length_replicate]; decide
theorem witness_pack : (3 : Nat) < 4 ∧ 4 * (255#8 : Index).toNat + 3 < min (List.replicate 1024 1#8).length 1024 := by
  rw [List.length_replicate]; decide
theorem witness_seedPass : (31 : Nat) < 32 ∧ (7 : Nat) < 8 := by decide
theorem witness_genInPlace : (256 : Nat) ≤ 256 := by decide
theorem witness_genIgnores : Engine.afterReset.mm = { Engine.afterReset with randcnt := 9 }.mm ∧
    Engine.afterReset.aa = { Engine.afterReset with randcnt := 9 }.aa ∧
    Engine.afterReset.bb = { Engine.afterReset with randcnt := 9 }.bb ∧
    Engine.afterReset.cc = { Engine.afterReset with randcnt := 9 }.cc ∧ (0 : Nat) < 1 := ⟨rfl, rfl, rfl, rfl, by decide⟩
theorem witness_nextWord : (sample 1 []).engine.seeded = true ∧ 0 < (sample 1 []).engine.randcnt ∧
    (sample 256 []).engine.randcnt ≤ 256 ∧ 0 < (sample 256 []).engine.randcnt ∧ (sample 1 []).engine.randcnt ≤ 256 := by decide
theorem witness_nextWord_refill : (sample 0 []).engine.seeded = true ∧ (sample 0 []).engine.randcnt = 0 := by decide
theorem witness_wordStream : (sample 256 []).engine.randcnt = 256 ∧ 1 ≤ 257 ∧ 256 < 257 := by decide
/-- For NextBytesTakesWordsInOrder, EmitsWholeWordFirst, Tails, ZeroCount, SplitsAtMultiplesOfFour and
FourBytesMatchNextWord. -/
theorem witness_nextBytes : (sample 0 []).engine.seeded = true ∧ (4 : Nat) ≤ 4 ∧ (8 : Nat) % 4 = 0 := by decide
theorem witness_nextBytes_negative : (sample 0 []).engine.seeded = true ∧ (-1 : Int) < 0 := by decide
theorem witness_extractionFrame : (sample 2 []).engine.seeded = true ∧ wordsTaken 7 ≤ (sample 3 []).engine.randcnt ∧
    (sample 3 []).engine.randcnt ≤ 256 ∧ (sample 3 []).engine.seeded = true := by decide
/-- For ExtractionRunsFewSteps and InspectReturnsElement. -/
theorem witness_cursorInRange : (sample 256 []).engine.seeded = true ∧ (sample 256 []).engine.randcnt ≤ 256 := by decide
/-- For UnseededAnswers and the second clause of StatusPriority (its others: witness_illegalWord and
witness_nextBytes_negative). -/
theorem witness_unseeded : State.reset.engine.seeded = false ∧ Region.randcnt ≠ Region.status := by decide
theorem witness_errors_illegal : (sample 3 [.transaction badWord]).inbox = .transaction badWord :: [] ∧
    (CommandIsIllegal badWord ∨ badWord.Complete) := ⟨rfl, .inl badWord_illegal⟩
theorem witness_errors_complete : (State.reset.offer (.transaction goodWord)).inbox = .transaction goodWord :: [] ∧
    (CommandIsIllegal goodWord ∨ goodWord.Complete) := ⟨rfl, .inr goodWord_complete⟩
theorem witness_invariant : ∃ t, (sample 256 [.transaction goodWord]).Inv ∧ step (sample 256 [.transaction goodWord]) = .next t :=
  ⟨_, fun _ => ⟨by decide, by decide⟩, rfl⟩
theorem witness_onlyReset : ∃ t, step (sample 256 [.transaction goodWord]) = .next t ∧
    (sample 256 [.transaction goodWord]).engine.seeded = true ∧ ¬ (sample 256 [.transaction goodWord]).ResetIsNext :=
  ⟨_, rfl, rfl, by
    rintro (⟨rest, h⟩ | ⟨t, rest, h, _⟩)
    · cases h
    · cases h⟩
theorem witness_unobservable : ∃ t, State.reset.Alike ⟨{ Engine.afterReset with aa := 7#32, randcnt := 300 }, [], []⟩ ∧
    step State.reset = .next t := ⟨_, ⟨rfl, rfl, rfl, fun h => by cases h⟩, rfl⟩
theorem witness_instances : ∃ q₁ q₂ t, (Platform.reset 2).instances[0]? = some State.reset ∧ step State.reset = .next t ∧
    (0 : Nat) ≠ 1 ∧ (Platform.reset 2).stepAt 0 = .next q₁ ∧ (Platform.reset 2).stepAt 1 = .next q₂ :=
  ⟨_, _, _, rfl, rfl, by decide, rfl, rfl⟩

end Sys2Proof.Tests
end

section
/-! PROOFS. One word taken by NEXT_WORD and by NEXT_BYTES(4) (R49), and the steps of a platform's instances (R58, R162). -/

namespace Sys2Proof.Machine

/-! ### The extraction commands on a seeded instance -/

/-- R122 on a seeded instance. -/
theorem exec_nextWord_of_seeded {s : State} (h : s.engine.seeded = true) :
    exec .nextWord s = .next ((s.setEngine (takeWord s.engine).engine).addResponse ⟨.ok, (takeWord s.engine).value, []⟩) := by
  rw [exec, execNextWord_eq, if_pos h, respondOk]

/-- R123 on a seeded instance, for a count that is not negative. -/
theorem exec_nextBytes_of_seeded {s : State} (n : Nat) (h : s.engine.seeded = true) :
    exec (.nextBytes n) s =
      .next ((s.setEngine (takeBytes n s.engine).engine).addResponse ⟨.ok, 0#32, (takeBytes n s.engine).value⟩) := by
  rw [exec, execNextBytes_eq, if_pos h, if_neg (by omega : ¬ (n : Int) < 0), Int.toNat_natCast, respondOk]

/-- Four bytes are one whole word of the stream, with no tail (R124). -/
theorem takeBytes_four (e : Engine) : takeBytes 4 e = ⟨wholeWordBytes (takeWord e).value, (takeWord e).engine⟩ := by
  simp [takeBytes, takeWholeWords, takeTwoByteTail, takeOneByteTail]

/-! ### Steps of a platform -/

/-- A step of instance `k` is that instance's own step, put back in its place. -/
theorem Platform.stepAt_of_step {p : Platform} {k : Nat} {s t : State} (hk : p.instances[k]? = some s)
    (ht : step s = .next t) : p.stepAt k = .next ⟨p.instances.set k t⟩ := by
  simp [stepAt, hk, ht]

/-- A platform steps at `k` only when it has an instance `k` and that instance steps. -/
theorem Platform.stepAt_next {p q : Platform} {k : Nat} (h : p.stepAt k = .next q) :
    ∃ s t, p.instances[k]? = some s ∧ step s = .next t ∧ q = ⟨p.instances.set k t⟩ := by
  unfold stepAt at h
  split at h
  · cases h
  · split at h
    · cases h
      exact ⟨_, _, ‹_›, ‹_›, rfl⟩
    · cases h
    · cases h

/-- After a step at `j`, another instance `k` takes the step it would have taken before. -/
theorem Platform.stepAt_set_of_ne {p : Platform} {j k : Nat} {s t : State} (u : State) (hjk : j ≠ k)
    (hk : p.instances[k]? = some s) (ht : step s = .next t) :
    (Platform.mk (p.instances.set j u)).stepAt k = .next ⟨(p.instances.set j u).set k t⟩ :=
  stepAt_of_step ((List.getElem?_set_ne hjk).trans hk) ht

/-- Steps of two different instances can be exchanged (R58). -/
theorem Platform.stepAt_comm {p q₁ q₂ : Platform} {j k : Nat} (hjk : j ≠ k) (hj : p.stepAt j = .next q₁)
    (hk : p.stepAt k = .next q₂) : q₁.stepAt k = q₂.stepAt j := by
  obtain ⟨sj, tj, hsj, htj, rfl⟩ := stepAt_next hj
  obtain ⟨sk, tk, hsk, htk, rfl⟩ := stepAt_next hk
  rw [stepAt_set_of_ne tj hjk hsk htk, stepAt_set_of_ne tk hjk.symm hsj htj, List.set_comm _ _ hjk]

end Sys2Proof.Machine

namespace Sys2Proof.Proofs
open Sys2Proof.Machine

/-- Settles O36: four bytes take one whole word, the word NEXT_WORD takes. -/
theorem fourBytesMatchNextWord : Obligations.FourBytesMatchNextWord := by
  intro s h
  have hbytes := exec_nextBytes_of_seeded 4 h
  rw [takeBytes_four] at hbytes
  exact ⟨_, _, _, exec_nextWord_of_seeded h, rfl, hbytes, rfl, rfl⟩

/-- Settles O49: a step at `k` sets entry `k` of the instances only, and sets of different entries commute. -/
theorem instancesShareNothing : Obligations.InstancesShareNothing := by
  constructor
  · intro p k s t hk ht
    obtain ⟨hlt, -⟩ := List.getElem?_eq_some_iff.mp hk
    exact ⟨_, Platform.stepAt_of_step hk ht, List.getElem?_set_self hlt, List.length_set,
      fun j hj => List.getElem?_set_ne hj.symm⟩
  · intro p q₁ q₂ r j k hjk hj hk
    rw [Platform.stepAt_comm hjk hj hk]

end Sys2Proof.Proofs
end

section
/-! PROOFS. What the decoder makes of a command word built from OPC and ARG (R62 to R67, R72), and the step that refuses an
Illegal word (R63, R65, R68). -/

namespace Sys2Proof

/-! ### The operand fields of INSPECT as numbers (R67, R72) -/

theorem toNat_regionField (arg : Word) : (regionField arg).toNat = arg.toNat / 256 % 16 := by
  simp [regionField, Nat.shiftRight_eq_div_pow]

theorem toNat_indexField (arg : Word) : (indexField arg).toNat = arg.toNat % 256 := by
  simp [indexField]

/-- A number names a region only if it is that region's number (R67). -/
theorem code_of_regionOfCode {c : BitVec 4} {r : Region} (h : regionOfCode c = some r) : r.code = c := by
  apply BitVec.eq_of_toNat_eq
  unfold regionOfCode at h
  split at h
  case h_8 => cases h
  all_goals
    cases h
    exact Eq.symm ‹_›

/-- The only ARGs that INSPECT accepts, and the command each gives (R67). -/
theorem decodeInspect_command {arg : Word} {i : Instr} (h : decodeInspect arg = .command i) :
    zeroField arg = 0#20 ∧ ∃ r : Region, r.code = regionField arg ∧ IndexFits r (indexField arg) ∧
      i = .inspect r (indexField arg) := by
  unfold decodeInspect at h
  split at h
  · cases h
  next hzero =>
    split at h
    · cases h
    next r hregion =>
      split at h
      · cases h
      next hindex =>
        cases h
        have hfits : IndexFits r (indexField arg) := by
          simpa [IndexFits, Decidable.or_iff_not_imp_left] using hindex
        exact ⟨not_not.mp hzero, r, code_of_regionOfCode hregion, hfits, rfl⟩

/-! ### The decoder, one equation per OPC of the opcode map (R62) -/

/-- R63: RSV is looked at before OPC. -/
theorem decode_of_rsvField_ne_zero {t : Transaction} (h : rsvField t.word ≠ 0#24) :
    decode t = .illegal .reservedBits := by
  simp [decode, decodeWith, h]

theorem decode_commandWord_seed (arg : Word) (payload : List Byte) :
    decode ⟨commandWord 0x01#8 arg, payload⟩ = .command (.seed payload) := by
  simp [decode, decodeWith]

theorem decode_commandWord_nextWord (arg : Word) (payload : List Byte) :
    decode ⟨commandWord 0x02#8 arg, payload⟩ =
      if arg ≠ 0#32 then .illegal .nextWordArgument else .command .nextWord := by
  simp [decode, decodeWith]

theorem decode_commandWord_nextBytes (arg : Word) (payload : List Byte) :
    decode ⟨commandWord 0x03#8 arg, payload⟩ = .command (.nextBytes arg.toInt) := by
  simp [decode, decodeWith]

theorem decode_commandWord_inspect (arg : Word) (payload : List Byte) :
    decode ⟨commandWord 0x04#8 arg, payload⟩ = decodeInspect arg := by
  simp [decode, decodeWith, Config.hasInspect]

theorem payloadLength_commandWord_seed (arg : Word) : payloadLength (commandWord 0x01#8 arg) = arg.toNat := by
  simp [payloadLength]

end Sys2Proof

namespace Sys2Proof.Machine

/-- R68: the step on an Illegal transaction. -/
theorem step_of_commandIsIllegal {s : State} {t : Transaction} {rest : List HostInput}
    (hin : s.inbox = .transaction t :: rest) (ht : CommandIsIllegal t) :
    step s = .next ((s.setInbox rest).addResponse ⟨.illegalCommand, 0#32, []⟩) := by
  obtain ⟨why, hwhy⟩ := ht
  simp [step, deliver, hin, receive, hwhy, raise]

end Sys2Proof.Machine

namespace Sys2Proof.Proofs
open Sys2Proof.Machine

/-- Settles O9: the decoder's equation for each OPC, with COUNT written out as two's complement. -/
theorem operandsAreAssembled : Obligations.OperandsAreAssembled := by
  refine ⟨payloadLength_commandWord_seed, decode_commandWord_seed, fun arg payload => ?_, fun arg payload i h => ?_⟩
  · have hsign : 2 * arg.toNat < 2 ^ 32 ↔ arg.toNat < 2 ^ 31 := by omega
    rw [decode_commandWord_nextBytes, BitVec.toInt_eq_toNat_cond]
    simp only [hsign, Nat.cast_pow, Nat.cast_ofNat]
  · rw [decode_commandWord_inspect] at h
    obtain ⟨-, r, hcode, -, rfl⟩ := decodeInspect_command h
    exact ⟨r, indexField arg, rfl, by rw [hcode, toNat_regionField], toNat_indexField arg⟩

/-- Settles O12: a set reserved bit makes the word Illegal before its OPC is read. -/
theorem reservedBitsAreRefused : Obligations.ReservedBitsAreRefused :=
  fun _ _ _ hin hrsv => step_of_commandIsIllegal hin ⟨_, decode_of_rsvField_ne_zero hrsv⟩

/-- Settles O13: NEXT_WORD's word is Illegal exactly when ARG is not 0. -/
theorem nextWordArgumentMustBeZero : Obligations.NextWordArgumentMustBeZero := by
  constructor
  · intro arg payload harg s rest hin
    exact step_of_commandIsIllegal hin ⟨_, (decode_commandWord_nextWord arg payload).trans (if_pos harg)⟩
  · intro payload
    exact (decode_commandWord_nextWord 0#32 payload).trans (if_neg (not_not.mpr rfl))

end Sys2Proof.Proofs
end

section
/-! PROOFS. PACK (R81, R82), and what SEED depends on: of the seed its zero-filled first 1024 bytes (R93), of the state it
is run in nothing (R94). -/

namespace Sys2Proof.Machine

/-! ### The seed bytes SEED reads (R81, R82) -/

/-- R81: the zero fill is the default of `getD`, so that the bound of R82 is the only one. -/
theorem seedByte_eq_getD (s : List Byte) (j : Nat) : seedByte s j = if j < 1024 then s.getD j 0#8 else 0#8 := by
  by_cases hj : j < s.length
  · simp only [seedByte, Config.seedMaxBytes, Nat.lt_min, hj, true_and]
  · simp only [seedByte, List.getD_eq_default _ _ (Nat.not_lt.mp hj), ite_self]

/-- R82: bytes from 1024 on have no effect. -/
theorem seedByte_eq_getD_take (s : List Byte) (j : Nat) : seedByte s j = (s.take 1024).getD j 0#8 := by
  rw [seedByte_eq_getD]
  simp only [List.getD_eq_getElem?_getD, List.getElem?_take]
  split <;> rfl

/-- R81: zeros at the end of a seed are the zeros it is filled with anyway. -/
theorem seedByte_append_zeros (s : List Byte) (n j : Nat) :
    seedByte (s ++ List.replicate n 0#8) j = seedByte s j := by
  have hpad : (s ++ List.replicate n 0#8).getD j 0#8 = s.getD j 0#8 := by
    by_cases hj : j < s.length
    · exact List.getD_append _ _ _ _ hj
    · rw [List.getD_append_right _ _ _ _ (Nat.not_lt.mp hj), List.getD_eq_default _ _ (Nat.not_lt.mp hj),
        List.getD_eq_getElem?_getD, List.getElem?_getD_replicate_default_eq]
  rw [seedByte_eq_getD, seedByte_eq_getD, hpad]

/-! ### The bytes of a packed word (R45, R81) -/

theorem extractLsb'_append_lowByte {v : Nat} (hi : BitVec v) (lo : Byte) : (hi ++ lo).extractLsb' 0 8 = lo := by
  rw [BitVec.extractLsb'_append_eq_of_add_le (by omega), BitVec.extractLsb'_eq_self]

theorem extractLsb'_append_highByte {v : Nat} (hi : BitVec v) (lo : Byte) (n : Nat) :
    (hi ++ lo).extractLsb' (8 * (n + 1)) 8 = hi.extractLsb' (8 * n) 8 :=
  BitVec.extractLsb'_append_eq_of_le (by omega)

/-- Byte `n` of packed word `k` is seed byte `4k+n` (R45, R81). -/
theorem extractLsb'_packWord (s : List Byte) (k : Nat) {n : Nat} (h : n < 4) :
    (packWord s k).extractLsb' (8 * n) 8 = seedByte s (4 * k + n) := by
  change BitVec.extractLsb' (n := 8 + 8 + 8 + 8) (8 * n) 8 (seedByte s (4 * k + 3) ++ seedByte s (4 * k + 2) ++
    seedByte s (4 * k + 1) ++ seedByte s (4 * k)) = _
  match n, h with
  | 0, _ => rw [extractLsb'_append_lowByte, Nat.add_zero]
  | 1, _ => rw [extractLsb'_append_highByte, extractLsb'_append_lowByte]
  | 2, _ => rw [extractLsb'_append_highByte, extractLsb'_append_highByte, extractLsb'_append_lowByte]
  | 3, _ =>
    rw [extractLsb'_append_highByte, extractLsb'_append_highByte, extractLsb'_append_highByte,
      BitVec.extractLsb'_eq_self]

/-! ### The block PACK leaves (R81) -/

theorem toNat_ofNat_index {n : Nat} (h : n < 256) : (BitVec.ofNat 8 n).toNat = n := by
  rw [BitVec.toNat_ofNat]
  exact Nat.mod_eq_of_lt h

/-- `n` writes of PACK reach the first `n` entries. -/
theorem readEntry_packWords (s : List Byte) {n : Nat} (hn : n ≤ 256) (b : Block) (j : Index) :
    readEntry (packWords s n b) j = if j.toNat < n then packWord s j.toNat else readEntry b j := by
  induction n with
  | zero => rfl
  | succ n ih =>
    rw [packWords, readEntry_writeEntry, ih (by omega)]
    by_cases hj : BitVec.ofNat 8 n = j
    · have : j.toNat = n := hj ▸ toNat_ofNat_index hn
      rw [if_pos hj, if_pos (by omega), this]
    · have : j.toNat ≠ n := fun h => hj (by rw [← h, BitVec.ofNat_toNat, BitVec.setWidth_eq])
      rw [if_neg hj]
      simp only [show j.toNat < n + 1 ↔ j.toNat < n by omega]

/-- Every word of the block after PACK is a packed word (R81). -/
theorem readEntry_pack (s : List Byte) (e : Engine) (k : Index) :
    readEntry (pack s e).randrsl k = packWord s k.toNat := by
  rw [pack_randrsl, Config.randsiz, readEntry_packWords s (Nat.le_refl 256), if_pos k.isLt]

/-- PACK leaves nothing of the old block (R81). -/
theorem pack_randrsl_eq (s : List Byte) (e₁ e₂ : Engine) : (pack s e₁).randrsl = (pack s e₂).randrsl :=
  block_ext fun k => by rw [readEntry_pack, readEntry_pack]

/-- PACK sees of its seed the zero-filled bytes only (R81, R82). -/
theorem packWords_congr {s₁ s₂ : List Byte} (h : ∀ j, seedByte s₁ j = seedByte s₂ j) (n : Nat) (b : Block) :
    packWords s₁ n b = packWords s₂ n b := by
  induction n with
  | zero => rfl
  | succ n ih => simp only [packWords, packWord, ih, h]

/-- SEED sees of its seed what PACK sees of it (R80). -/
theorem seedEngine_congr {s₁ s₂ : List Byte} (h : ∀ j, seedByte s₁ j = seedByte s₂ j) (e : Engine) :
    seedEngine s₁ e = seedEngine s₂ e := by
  simp only [seedEngine, pack, packWords_congr h]

/-! ### What a seed pass depends on (R87, R88) -/

/-- A group stores its eight scratch registers from entry `i` on, and leaves every other entry alone (R87). -/
theorem readEntry_storeScratch (b : Block) (i j : Index) (r : Scratch) :
    readEntry (storeScratch b i r) j = if (j - i).toNat < 8 then r.entry (j - i).toNat else readEntry b j := by
  obtain ⟨d, rfl⟩ : ∃ d, j = i + d := ⟨j - i, (add_sub_cancel i j).symm⟩
  simp only [storeScratch, readEntry_writeEntry, add_sub_cancel_left, add_right_inj, left_eq_add]
  by_cases hd : d.toNat < 8
  · obtain ⟨k, hk, rfl⟩ : ∃ k < 8, d = BitVec.ofNat 8 k := ⟨d.toNat, hd, by simp⟩
    interval_cases k <;> rfl
  · have hne : ∀ k < 8, BitVec.ofNat 8 k ≠ d := by
      rintro k hk rfl
      exact hd (by rwa [toNat_ofNat_index (by omega)])
    simp [hd, hne, (hne 0 (by decide)).symm]

/-- The pass over `randrsl`: its registers, and the entries stored so far, do not depend on the old `mm` (R87). -/
theorem seedGroups_randrsl_congr {p₁ p₂ : Pass} (hs : p₁.scratch = p₂.scratch)
    (hr : p₁.engine.randrsl = p₂.engine.randrsl) {n : Nat} (hn : n ≤ 32) :
    (seedGroups Engine.randrsl n p₁).scratch = (seedGroups Engine.randrsl n p₂).scratch ∧
      ∀ j : Index, j.toNat < 8 * n → readEntry (seedGroups Engine.randrsl n p₁).engine.mm j =
        readEntry (seedGroups Engine.randrsl n p₂).engine.mm j := by
  induction n with
  | zero => exact ⟨hs, fun _ h => absurd h (Nat.not_lt_zero _)⟩
  | succ n ih =>
    obtain ⟨ihs, ihm⟩ := ih (by omega)
    simp only [seedGroups, seedGroup, seedGroups_randrsl, ihs, hr, readEntry_storeScratch, true_and]
    intro j hj
    split
    · rfl
    next hother =>
      rw [BitVec.toNat_sub, toNat_ofNat_index (by omega)] at hother
      exact ihm j (by omega)

/-- The first pass stores all 256 entries, so that nothing of the old `mm` is left (R87). -/
theorem seedPass_randrsl_congr {p₁ p₂ : Pass} (hs : p₁.scratch = p₂.scratch)
    (hr : p₁.engine.randrsl = p₂.engine.randrsl) :
    (seedPass Engine.randrsl p₁).scratch = (seedPass Engine.randrsl p₂).scratch ∧
      (seedPass Engine.randrsl p₁).engine.mm = (seedPass Engine.randrsl p₂).engine.mm := by
  obtain ⟨hscratch, hmm⟩ := seedGroups_randrsl_congr hs hr (Nat.le_refl 32)
  rw [seedPass_def, seedPass_def, Config.seedGroups]
  exact ⟨hscratch, block_ext fun j => hmm j j.isLt⟩

/-- The pass over `mm` depends on its registers and on `mm` (R88). -/
theorem seedGroups_mm_congr {p₁ p₂ : Pass} (hs : p₁.scratch = p₂.scratch) (hm : p₁.engine.mm = p₂.engine.mm) (n : Nat) :
    (seedGroups Engine.mm n p₁).scratch = (seedGroups Engine.mm n p₂).scratch ∧
      (seedGroups Engine.mm n p₁).engine.mm = (seedGroups Engine.mm n p₂).engine.mm := by
  induction n with
  | zero => exact ⟨hs, hm⟩
  | succ n ih =>
    obtain ⟨ihs, ihm⟩ := ih
    simp only [seedGroups, seedGroup, ihs, ihm, and_self]

theorem seedPass_mm_congr {p₁ p₂ : Pass} (hs : p₁.scratch = p₂.scratch) (hm : p₁.engine.mm = p₂.engine.mm) :
    (seedPass Engine.mm p₁).engine.mm = (seedPass Engine.mm p₂).engine.mm := by
  rw [seedPass_def, seedPass_def]
  exact (seedGroups_mm_congr hs hm _).2

/-! ### The elements GEN_STEP leaves to its caller (R107) -/

/-- `e` with the two elements that GEN_STEP leaves to its caller (R107) replaced. -/
def Engine.setCallerFields (e : Engine) (cursor : Nat) (seeded : Bool) : Engine :=
  { e with randcnt := cursor, seeded := seeded }

/-- Engines that agree everywhere else become equal. -/
theorem Engine.setCallerFields_congr {e₁ e₂ : Engine} (hmm : e₁.mm = e₂.mm) (hrandrsl : e₁.randrsl = e₂.randrsl)
    (haa : e₁.aa = e₂.aa) (hbb : e₁.bb = e₂.bb) (hcc : e₁.cc = e₂.cc) (c : Nat) (f : Bool) :
    e₁.setCallerFields c f = e₂.setCallerFields c f := by
  simp only [setCallerFields, hmm, hrandrsl, haa, hbb, hcc]

theorem genSlots_setCallerFields (n c : Nat) (f : Bool) (e : Engine) :
    genSlots n (e.setCallerFields c f) = (genSlots n e).setCallerFields c f := by
  induction n with
  | zero => rfl
  | succ n ih => rw [genSlots, ih]; rfl

/-- GEN_STEP neither reads nor writes the elements it leaves to its caller (R107). -/
theorem genStep_setCallerFields (c : Nat) (f : Bool) (e : Engine) :
    genStep (e.setCallerFields c f) = (genStep e).setCallerFields c f := by
  rw [genStep_def, genStep_def]
  exact genSlots_setCallerFields Config.randsiz c f (genPrologue e)

/-! ### The state SEED leaves depends on the seed alone (R80 to R90) -/

/-- The second pass finds what the first one left, which is the same for both engines (R88). -/
theorem seedPasses_mm_eq (s : List Byte) (e₁ e₂ : Engine) : (seedPasses s e₁).mm = (seedPasses s e₂).mm := by
  obtain ⟨hscratch, hmm⟩ := seedPass_randrsl_congr (p₁ := ⟨prescramble, clearAccumulators (pack s e₁)⟩)
    (p₂ := ⟨prescramble, clearAccumulators (pack s e₂)⟩) rfl (pack_randrsl_eq s e₁ e₂)
  exact seedPass_mm_congr hscratch hmm

theorem seedPasses_randrsl (s : List Byte) (e : Engine) : (seedPasses s e).randrsl = (pack s e).randrsl := by
  rw [seedPasses, seedPass_randrsl, seedPass_randrsl, clearAccumulators_randrsl]

/-- The end of SEED (R90) can be put before its GEN_STEPs. -/
theorem seedEngine_eq_genStep (s : List Byte) (e : Engine) :
    seedEngine s e = genStep (genStep ((seedPasses s e).setCallerFields 256 true)) := by
  rw [genStep_setCallerFields, genStep_setCallerFields]
  exact seedEngine_def s e

/-- SEED leaves nothing of the engine it finds (R80 to R90). -/
theorem seedEngine_eq (s : List Byte) (e₁ e₂ : Engine) : seedEngine s e₁ = seedEngine s e₂ := by
  have hrandrsl : (seedPasses s e₁).randrsl = (seedPasses s e₂).randrsl := by
    rw [seedPasses_randrsl, seedPasses_randrsl, pack_randrsl_eq]
  have hpasses : (seedPasses s e₁).setCallerFields 256 true = (seedPasses s e₂).setCallerFields 256 true :=
    Engine.setCallerFields_congr (seedPasses_mm_eq s e₁ e₂) hrandrsl (by simp) (by simp) (by simp) 256 true
  rw [seedEngine_eq_genStep, seedEngine_eq_genStep, hpasses]

/-! ### Commands as functions of the engine (R94) -/

theorem exec_seed (bytes : List Byte) (s : State) :
    exec (.seed bytes) s = .next ⟨seedEngine bytes s.engine, s.inbox, s.outbox ++ [⟨.ok, 0#32, []⟩]⟩ := rfl

/-- A command's response and the engine it leaves are functions of the engine it finds: of the rest of the state it reads
nothing (R94). -/
theorem exec_answers_of_engine (i : Instr) (e : Engine) :
    ∃ e' r, ∀ inbox outbox, exec i ⟨e, inbox, outbox⟩ = .next ⟨e', inbox, outbox ++ [r]⟩ := by
  cases i with
  | seed bytes => exact ⟨seedEngine bytes e, _, fun inbox outbox => exec_seed bytes ⟨e, inbox, outbox⟩⟩
  | nextWord =>
    simp only [exec, execNextWord_eq]
    split_ifs <;> exact ⟨_, _, fun _ _ => rfl⟩
  | nextBytes count =>
    simp only [exec, execNextBytes_eq]
    split_ifs <;> exact ⟨_, _, fun _ _ => rfl⟩
  | inspect region index =>
    simp only [exec, execInspect_eq]
    split_ifs <;> exact ⟨_, _, fun _ _ => rfl⟩

/-- The same of a sequence of commands, with one response each (R54, R69). -/
theorem execAll_answers_of_engine (is : List Instr) (e : Engine) :
    ∃ e' rs, rs.length = is.length ∧
      ∀ inbox outbox, execAll is ⟨e, inbox, outbox⟩ = .next ⟨e', inbox, outbox ++ rs⟩ := by
  induction is generalizing e with
  | nil => exact ⟨e, [], rfl, fun _ outbox => by rw [execAll, List.append_nil]⟩
  | cons i is ih =>
    obtain ⟨e₁, r, hfirst⟩ := exec_answers_of_engine i e
    obtain ⟨e₂, rs, hlen, hrest⟩ := ih e₁
    refine ⟨e₂, r :: rs, congrArg (· + 1) hlen, fun inbox outbox => ?_⟩
    simp only [execAll, hfirst, hrest, List.append_assoc, List.singleton_append]

end Sys2Proof.Machine

namespace Sys2Proof.Proofs
open Sys2Proof.Machine

/-- Settles O18: the two seeds have the same zero-filled bytes, and SEED sees no others. -/
theorem seedTruncationAndPadding : Obligations.SeedTruncationAndPadding := by
  have hsame : ∀ {bytes₁ bytes₂ : List Byte}, (∀ j, seedByte bytes₁ j = seedByte bytes₂ j) →
      ∀ s, exec (.seed bytes₁) s = exec (.seed bytes₂) s := fun h s => by
    rw [exec_seed, exec_seed, seedEngine_congr h]
  refine ⟨fun bytes₁ bytes₂ htake => hsame fun j => ?_, fun bytes _ => hsame fun j => ?_, hsame fun j => ?_⟩
  · rw [seedByte_eq_getD_take, seedByte_eq_getD_take, htake]
  · exact (seedByte_append_zeros bytes _ j).symm
  · exact (seedByte_append_zeros [] 1024 j).symm

/-- Settles O19: each of the 256 entries is a packed word, and a packed word's bytes are seed bytes. -/
theorem packIsLittleEndian : Obligations.PackIsLittleEndian := by
  intro bytes e k n hn
  rw [readEntry_pack, extractLsb'_packWord bytes k.toNat hn]
  rfl

/-- Settles O48: SEED leaves the same engine in both states, and from there the engine decides every response. -/
theorem sameSeedSameResponses : Obligations.SameSeedSameResponses := by
  intro bytes commands s₁ s₂
  obtain ⟨e, rs, hlen, hrun⟩ := execAll_answers_of_engine commands (seedEngine bytes s₁.engine)
  have hseed : ∀ s : State, execAll (.seed bytes :: commands) s =
      .next ⟨e, s.inbox, s.outbox ++ (⟨.ok, 0#32, []⟩ :: rs)⟩ := fun s => by
    simp only [execAll, exec_seed, seedEngine_eq bytes s.engine s₁.engine, hrun, List.append_assoc,
      List.singleton_append]
  exact ⟨_, _, _, hseed s₁, hseed s₂, rfl, rfl, congrArg (· + 1) hlen, rfl⟩

end Sys2Proof.Proofs
end

section
/-! PROOFS. What GEN_STEP depends on: `mm`, `aa`, `bb` and `cc` alone (R108). -/

namespace Sys2Proof.Machine

/-- The two engines are alike in the elements GEN_STEP reads (R108). -/
structure SameGenInput (e₁ e₂ : Engine) : Prop where
  mm : e₁.mm = e₂.mm
  aa : e₁.aa = e₂.aa
  bb : e₁.bb = e₂.bb
  cc : e₁.cc = e₂.cc

theorem sameGenInput_genPrologue {e₁ e₂ : Engine} (h : SameGenInput e₁ e₂) :
    SameGenInput (genPrologue e₁) (genPrologue e₂) :=
  ⟨h.mm, h.aa, by simp only [genPrologue_bb, h.bb, h.cc], by simp only [genPrologue_cc, h.cc]⟩

/-- A slot reads nothing of the old output block (R102 to R105). -/
theorem sameGenInput_genSlot {e₁ e₂ : Engine} (h : SameGenInput e₁ e₂) (i : Index) :
    SameGenInput (genSlot i e₁) (genSlot i e₂) := by
  obtain ⟨hmm, haa, hbb, hcc⟩ := h
  constructor <;> simp only [genSlot, hmm, haa, hbb, hcc]

theorem sameGenInput_genSlots {e₁ e₂ : Engine} (h : SameGenInput e₁ e₂) (n : Nat) :
    SameGenInput (genSlots n e₁) (genSlots n e₂) := by
  induction n with
  | zero => exact h
  | succ n ih => exact sameGenInput_genSlot ih (BitVec.ofNat 8 n)

/-- `n` slots write the first `n` entries of the output block, each with the `bb` of its slot (R105). -/
theorem readEntry_genSlots_randrsl_congr {e₁ e₂ : Engine} (h : SameGenInput e₁ e₂) {n : Nat} {j : Index}
    (hj : j.toNat < n) : readEntry (genSlots n e₁).randrsl j = readEntry (genSlots n e₂).randrsl j := by
  induction n with
  | zero => exact absurd hj (Nat.not_lt_zero _)
  | succ n ih =>
    by_cases hlast : BitVec.ofNat 8 n = j
    · subst hlast
      rw [← genSlots_succ_bb, ← genSlots_succ_bb, (sameGenInput_genSlots h (n + 1)).bb]
    · have hne : j.toNat ≠ n := fun hn => hlast (by rw [← hn, BitVec.ofNat_toNat, BitVec.setWidth_eq])
      rw [genSlots, genSlots, genSlot_randrsl_other _ hlast, genSlot_randrsl_other _ hlast]
      exact ih (by omega)

theorem sameGenInput_genStep {e₁ e₂ : Engine} (h : SameGenInput e₁ e₂) : SameGenInput (genStep e₁) (genStep e₂) := by
  rw [genStep_def, genStep_def]
  exact sameGenInput_genSlots (sameGenInput_genPrologue h) Config.randsiz

/-- The 256 slots leave nothing of the old output block (R108). -/
theorem genStep_randrsl_congr {e₁ e₂ : Engine} (h : SameGenInput e₁ e₂) :
    (genStep e₁).randrsl = (genStep e₂).randrsl := by
  rw [genStep_def, genStep_def]
  exact block_ext fun j => readEntry_genSlots_randrsl_congr (sameGenInput_genPrologue h) j.isLt

theorem sameGenInput_genSteps {e₁ e₂ : Engine} (h : SameGenInput e₁ e₂) (n : Nat) :
    SameGenInput (genSteps n e₁) (genSteps n e₂) := by
  induction n with
  | zero => exact h
  | succ n ih => exact sameGenInput_genStep ih

end Sys2Proof.Machine

namespace Sys2Proof.Proofs
open Sys2Proof.Machine

/-- Settles O25: every step keeps the two engines alike in what a step reads, and the last one writes the whole output
block. -/
theorem genStepIgnoresOutputBlock : Obligations.GenStepIgnoresOutputBlock := by
  intro e₁ e₂ n hmm haa hbb hcc
  have hstart : SameGenInput e₁ e₂ := ⟨hmm, haa, hbb, hcc⟩
  obtain ⟨hmm', haa', hbb', hcc'⟩ := sameGenInput_genSteps hstart n
  refine ⟨hmm', haa', hbb', hcc', fun hpos => ?_⟩
  cases n with
  | zero => exact absurd hpos (Nat.lt_irrefl 0)
  | succ n => exact genStep_randrsl_congr (sameGenInput_genSteps hstart n)

end Sys2Proof.Proofs
end

section
/-! PROOFS. NEXT_BYTES word by word (R124), and the two counts that take no word (R127, R128). -/

namespace Sys2Proof.Machine

/-- No bytes take no word (R127). -/
@[simp] theorem takeBytes_zero (e : Engine) : takeBytes 0 e = ⟨[], e⟩ := rfl

/-- With four bytes more to fill, one whole word comes first; the tails are those of the smaller count (R124). -/
theorem takeBytes_add_four (n : Nat) (e : Engine) :
    takeBytes (n + 4) e = ⟨wholeWordBytes (takeWord e).value ++ (takeBytes n (takeWord e).engine).value,
      (takeBytes n (takeWord e).engine).engine⟩ := by
  have hdiv : (n + 4) / 4 = n / 4 + 1 := Nat.add_div_right n (by decide)
  have hmod : (n + 4) % 4 = n % 4 := Nat.add_mod_right n 4
  simp only [takeBytes, hdiv, hmod, takeWholeWords, List.append_assoc]

/-- R128 on a seeded instance. -/
theorem exec_nextBytes_of_neg {s : State} {n : Int} (h : s.engine.seeded = true) (hn : n < 0) :
    exec (.nextBytes n) s = .next (s.addResponse ⟨.invalidArgument, 0#32, []⟩) := by
  rw [exec, execNextBytes_eq, if_pos h, if_pos hn, raise]

end Sys2Proof.Machine

namespace Sys2Proof.Proofs
open Sys2Proof.Machine

/-- Settles O31: four bytes more are one whole word more, and it is the first one taken. -/
theorem nextBytesEmitsWholeWordFirst : Obligations.NextBytesEmitsWholeWordFirst := by
  intro s n h hn w
  obtain ⟨m, rfl⟩ := Nat.exists_eq_add_of_le' hn
  have hseeded : (s.setEngine w.engine).engine.seeded = true := (takeWord_seeded s.engine).trans h
  have hall := exec_nextBytes_of_seeded (m + 4) h
  rw [takeBytes_add_four] at hall
  exact ⟨_, _, exec_nextBytes_of_seeded m hseeded, rfl, hall⟩

/-- Settles O33: no word is taken, so the engine put back is the one that was there. -/
theorem nextBytesZeroCount : Obligations.NextBytesZeroCount := by
  intro s h
  have hzero := exec_nextBytes_of_seeded 0 h
  rwa [takeBytes_zero] at hzero

/-- Settles O34: a refusal adds its response and leaves everything else. -/
theorem nextBytesNegativeCount : Obligations.NextBytesNegativeCount :=
  fun _ _ h hn => exec_nextBytes_of_neg h hn

end Sys2Proof.Proofs
end

section
/-! PROOFS. INSPECT between the commands of a sequence (R142), and what an unseeded instance answers (R143, R151, R171). -/

namespace Sys2Proof.Machine

/-! ### Sequences of commands, and INSPECT within one (R54, R142) -/

/-- A sequence runs its first part, and the second part from where the first ends (R54). -/
theorem execAll_append_of_next {is js : List Instr} {s t : State} (h : execAll is s = .next t) :
    execAll (is ++ js) s = execAll js t := by
  induction is generalizing s with
  | nil =>
    cases h
    rfl
  | cons i is ih =>
    obtain ⟨e, r, hfirst⟩ := exec_answers i s
    simp only [execAll, hfirst] at h
    simp only [List.cons_append, execAll, hfirst, ih h]

/-- INSPECT adds its response and changes nothing else (R142). -/
theorem exec_inspect_only_responds (region : Region) (index : Index) (s : State) :
    ∃ r, exec (.inspect region index) s = .next (s.addResponse r) := by
  rw [exec, execInspect_eq]
  split_ifs <;> exact ⟨_, rfl⟩

/-! ### The commands on an unseeded instance (R143, R151) -/

theorem exec_nextWord_of_unseeded {s : State} (h : s.engine.seeded = false) :
    exec .nextWord s = .next (s.addResponse ⟨.unseeded, 0#32, []⟩) := by
  rw [exec, execNextWord_eq, if_neg (by simp [h]), raise]

/-- Whatever the count: Unseeded comes before InvalidArgument (R153). -/
theorem exec_nextBytes_of_unseeded {s : State} (n : Int) (h : s.engine.seeded = false) :
    exec (.nextBytes n) s = .next (s.addResponse ⟨.unseeded, 0#32, []⟩) := by
  rw [exec, execNextBytes_eq, if_neg (by simp [h]), raise]

theorem exec_inspect_of_unseeded {s : State} {region : Region} (index : Index) (hregion : region ≠ .status)
    (h : s.engine.seeded = false) :
    exec (.inspect region index) s = .next (s.addResponse ⟨.unseeded, 0#32, []⟩) := by
  rw [exec, execInspect_eq, if_pos ⟨hregion, h⟩, raise]

/-- INSPECT of STATUS is answered in every state (R143). -/
theorem exec_inspect_status (index : Index) (s : State) :
    exec (.inspect .status index) s = .next (s.addResponse ⟨.ok, statusWord s.engine, []⟩) := by
  rw [exec, execInspect_eq, if_neg (fun h => h.1 rfl), respondOk, readRegion]

theorem statusWord_of_unseeded {e : Engine} (h : e.seeded = false) : statusWord e = 0#32 := by
  rw [statusWord, h]
  rfl

end Sys2Proof.Machine

namespace Sys2Proof.Proofs
open Sys2Proof.Machine

/-- Settles O40: INSPECT adds only its response, and the engine it leaves as it was decides every later response. -/
theorem inspectPerturbsNothing : Obligations.InspectPerturbsNothing := by
  intro before after region index s
  obtain ⟨e₁, rs₁, hlen, hbefore⟩ := execAll_answers_of_engine before s.engine
  obtain ⟨e₂, rs₂, -, hafter⟩ := execAll_answers_of_engine after e₁
  obtain ⟨r, hinspect⟩ := exec_inspect_only_responds region index ⟨e₁, s.inbox, s.outbox ++ rs₁⟩
  have hwithout : execAll (before ++ after) s = .next ⟨e₂, s.inbox, s.outbox ++ rs₁ ++ rs₂⟩ :=
    (execAll_append_of_next (hbefore s.inbox s.outbox)).trans (hafter _ _)
  have hwith : execAll (before ++ .inspect region index :: after) s =
      .next ⟨e₂, s.inbox, s.outbox ++ rs₁ ++ [r] ++ rs₂⟩ := by
    refine (execAll_append_of_next (hbefore s.inbox s.outbox)).trans ?_
    rw [execAll, hinspect]
    exact hafter _ _
  exact ⟨_, _, r, rs₁, rs₂, hwithout, hwith, hlen, rfl, rfl, rfl, rfl⟩

/-- Settles O41: every command but SEED and INSPECT of STATUS answers Unseeded, and the STATUS word is SEEDED. -/
theorem unseededAnswers : Obligations.UnseededAnswers := by
  intro s h answer
  refine ⟨exec_nextWord_of_unseeded h, fun n => exec_nextBytes_of_unseeded n h,
    fun _ k hregion => exec_inspect_of_unseeded k hregion h, fun k => ?_⟩
  have hstatus := exec_inspect_status k s
  rwa [statusWord_of_unseeded h] at hstatus

end Sys2Proof.Proofs
end

section
/-! PROOFS. The two ways a command can end (R11, R152), and the order in which the statuses are reported (R153). -/

namespace Sys2Proof.Machine

/-- A command either completes with status OK, or ends in `raise`, which leaves every element as it was (R11, R152). -/
theorem exec_respondOk_or_raise (i : Instr) (s : State) :
    (∃ e value bytes, exec i s = respondOk value bytes (s.setEngine e)) ∨ ∃ status, exec i s = raise status s := by
  cases i with
  | seed bytes => exact .inl ⟨_, _, _, rfl⟩
  | nextWord =>
    rw [exec, execNextWord_eq]
    split
    · exact .inl ⟨_, _, _, rfl⟩
    · exact .inr ⟨_, rfl⟩
  | nextBytes count =>
    rw [exec, execNextBytes_eq]
    split
    · split
      · exact .inr ⟨_, rfl⟩
      · exact .inl ⟨_, _, _, rfl⟩
    · exact .inr ⟨_, rfl⟩
  | inspect region index =>
    rw [exec, execInspect_eq]
    split
    · exact .inr ⟨_, rfl⟩
    · exact .inl ⟨s.engine, _, _, rfl⟩

/-- A whole transaction that decodes to a command runs it, with the input taken (R60). -/
theorem step_of_complete {s : State} {t : Transaction} {rest : List HostInput} {i : Instr}
    (hin : s.inbox = .transaction t :: rest) (hdecode : decode t = .command i) (hcomplete : t.Complete) :
    step s = exec i (s.setInbox rest) := by
  simp only [step, deliver, hin, receive, hdecode, if_pos hcomplete]

/-- The step on an Illegal or a whole transaction takes the input and ends in one of the two ways a command can end. -/
theorem step_respondOk_or_raise {s : State} {t : Transaction} {rest : List HostInput}
    (hin : s.inbox = .transaction t :: rest) (ht : CommandIsIllegal t ∨ t.Complete) :
    (∃ e value bytes, step s = respondOk value bytes ((s.setInbox rest).setEngine e)) ∨
      ∃ status, step s = raise status (s.setInbox rest) := by
  cases hdecode : decode t with
  | illegal why => exact .inr ⟨.illegalCommand, step_of_commandIsIllegal hin ⟨why, hdecode⟩⟩
  | command i =>
    have hcomplete : t.Complete := ht.resolve_left fun ⟨why, hwhy⟩ => by
      rw [hdecode] at hwhy
      cases hwhy
    rw [step_of_complete hin hdecode hcomplete]
    exact exec_respondOk_or_raise i _

end Sys2Proof.Machine

namespace Sys2Proof.Proofs
open Sys2Proof.Machine

/-- Settles O43: of the two ways a transaction's command can end, the one with a non-OK status changes no element. -/
theorem errorsLeaveStateUnchanged : Obligations.ErrorsLeaveStateUnchanged := by
  intro s t rest hin ht
  obtain ⟨e, value, bytes, hok⟩ | ⟨status, herror⟩ := step_respondOk_or_raise hin ht
  · exact ⟨_, _, hok, rfl, rfl, fun hstatus => absurd rfl hstatus⟩
  · exact ⟨_, _, herror, rfl, rfl, fun _ => ⟨rfl, rfl, rfl⟩⟩

/-- Settles O42: the decoder answers before SEEDED is read, and SEEDED is read before the count. -/
theorem statusPriority : Obligations.StatusPriority :=
  ⟨fun _ _ _ hin ht => step_of_commandIsIllegal hin ht, fun _ n h => exec_nextBytes_of_unseeded n h,
    fun _ _ h hn => exec_nextBytes_of_neg h hn⟩

end Sys2Proof.Proofs
end

section
/-! PROOFS. The decoder on every command word (R62 to R68): it inverts the encoder, the encoder inverts it, and the words it
refuses are the reserved ones. -/

namespace Sys2Proof

/-! ### A command word is its fields (R61) -/

/-- A command word with RSV = 0 is the one built from its OPC and its ARG (R61). -/
theorem commandWord_opcField_argField {cw : CommandWord} (h : rsvField cw = 0#24) :
    commandWord (opcField cw) (argField cw) = cw := by
  apply BitVec.eq_of_getLsbD_eq
  intro k hk
  rw [getLsbD_commandWord, argField, opcField, BitVec.getLsbD_extractLsb', BitVec.getLsbD_extractLsb']
  by_cases hlow : k < 32
  · simp [hlow]
  by_cases hmid : k < 56
  · have hbit : (rsvField cw).getLsbD (k - 32) = false := by rw [h]; exact BitVec.getLsbD_zero
    rw [rsvField, BitVec.getLsbD_extractLsb', Nat.add_sub_cancel' (Nat.not_lt.mp hlow)] at hbit
    simpa [hlow, hmid, show k - 32 < 24 by omega] using hbit.symm
  · simp [hlow, hmid, show k - 56 < 8 by omega, Nat.add_sub_cancel' (Nat.not_lt.mp hmid)]

/-- The value of a command word (R61). -/
theorem toNat_commandWord (opc : BitVec 8) (arg : Word) : (commandWord opc arg).toNat = opc.toNat * 2 ^ 56 + arg.toNat := by
  have harg := arg.isLt
  change BitVec.toNat (w := 8 + 24 + 32) (opc ++ 0#24 ++ arg) = _
  rw [BitVec.toNat_append, BitVec.toNat_append, ← Nat.shiftLeft_add_eq_or_of_lt harg, Nat.shiftLeft_eq,
    ← Nat.shiftLeft_add_eq_or_of_lt (BitVec.isLt _), Nat.shiftLeft_eq]
  simp
  omega

/-- INSPECT's ARG with ZERO = 0 is the one built from its REGION and its INDEX (R67). -/
theorem inspectArg_of_fields {arg : Word} {r : Region} (hzero : zeroField arg = 0#20) (hregion : r.code = regionField arg) :
    inspectArg r (indexField arg) = arg := by
  apply BitVec.eq_of_getLsbD_eq
  intro k hk
  rw [getLsbD_inspectArg, hregion, indexField, regionField, BitVec.getLsbD_extractLsb', BitVec.getLsbD_extractLsb']
  by_cases hlow : k < 8
  · simp [hlow]
  by_cases hmid : k < 12
  · simp [hlow, hmid, show k - 8 < 4 by omega, Nat.add_sub_cancel' (Nat.not_lt.mp hlow)]
  · have hbit : (zeroField arg).getLsbD (k - 12) = false := by rw [hzero]; exact BitVec.getLsbD_zero
    rw [zeroField, BitVec.getLsbD_extractLsb', Nat.add_sub_cancel' (Nat.not_lt.mp hmid)] at hbit
    simpa [hlow, hmid, show k - 12 < 20 by omega] using hbit.symm

/-! ### The words that decode to a command (R62 to R68) -/

/-- INSPECT accepts an ARG with ZERO = 0, a region number and an index that fits it (R67). -/
theorem decodeInspect_inspectArg {r : Region} {k : Index} (h : IndexFits r k) :
    decodeInspect (inspectArg r k) = .command (.inspect r k) := by
  have hindex : ¬ (r.indexed = false ∧ k ≠ 0#8) := by
    rintro ⟨hr, hk⟩
    exact h.elim (fun hr' => by simp [hr] at hr') hk
  simp [decodeInspect, hindex]

/-- A word that decodes to a command has RSV = 0 and that command's OPC (R62, R63). -/
theorem rsvField_and_opcField_of_decode {t : Transaction} {i : Instr} (h : decode t = .command i) :
    rsvField t.word = 0#24 ∧ opcField t.word = i.opcode := by
  have opc_eq : ∀ {opc : BitVec 8}, (opcField t.word).toNat = opc.toNat → opcField t.word = opc :=
    fun hnat => BitVec.eq_of_toNat_eq hnat
  unfold decode decodeWith at h
  split at h
  · cases h
  next hrsv =>
    refine ⟨not_not.mp hrsv, ?_⟩
    split at h
    next hopc => cases h; exact opc_eq hopc
    next hopc =>
      split at h
      · cases h
      · cases h; exact opc_eq hopc
    next hopc => cases h; exact opc_eq hopc
    next hopc =>
      obtain ⟨-, r, -, -, rfl⟩ := decodeInspect_command h
      exact opc_eq hopc
    · cases h

/-- Such a word is built from that OPC and its ARG (R61). -/
theorem word_of_decode {t : Transaction} {i : Instr} (h : decode t = .command i) :
    t.word = commandWord i.opcode (argField t.word) := by
  obtain ⟨hrsv, hopc⟩ := rsvField_and_opcField_of_decode h
  rw [← hopc, commandWord_opcField_argField hrsv]

/-- Only SEED has payload bytes (R71). -/
theorem payloadLength_commandWord_of_ne {opc : BitVec 8} (h : opc ≠ 0x01#8) (arg : Word) :
    payloadLength (commandWord opc arg) = 0 := by
  simp [payloadLength, h]

/-! ### The words that decode to none (R62, R67, R68) -/

/-- The opcode map has four rows; every other OPC is reserved (R62, R73). -/
theorem reserved_or_opcode (opc : BitVec 8) : (opc = 0x00#8 ∨ 0x05 ≤ opc.toNat) ∨
    opc = 0x01#8 ∨ opc = 0x02#8 ∨ opc = 0x03#8 ∨ opc = 0x04#8 := by bv_omega

/-- The OPCs that the opcode map leaves out are Illegal (R62, R73). -/
theorem decode_commandWord_reserved {opc : BitVec 8} (arg : Word) (payload : List Byte)
    (h : opc = 0x00#8 ∨ 0x05 ≤ opc.toNat) : decode ⟨commandWord opc arg, payload⟩ = .illegal .reservedOpcode := by
  have hne : ∀ n, 1 ≤ n → n ≤ 4 → opc.toNat ≠ n := by
    rintro n h1 h4 rfl
    obtain rfl | h5 := h
    · exact absurd h1 (by decide)
    · omega
  unfold decode decodeWith
  rw [if_neg (by simp)]
  simp only [opcField_commandWord]
  split
  · exact absurd ‹_› (hne 1 (by omega) (by omega))
  · exact absurd ‹_› (hne 2 (by omega) (by omega))
  · exact absurd ‹_› (hne 3 (by omega) (by omega))
  · exact absurd ‹_› (hne 4 (by omega) (by omega))
  · rfl

theorem zeroField_eq_zero_iff (arg : Word) : zeroField arg = 0#20 ↔ arg.toNat / 4096 = 0 := by
  have hlt := arg.isLt
  rw [← BitVec.toNat_inj, zeroField, BitVec.extractLsb'_toNat, Nat.shiftRight_eq_div_pow, BitVec.toNat_ofNat]
  omega

/-- The reserved region numbers are 7 to 15 (R67, R141). -/
theorem regionOfCode_eq_none_iff (c : BitVec 4) : regionOfCode c = none ↔ 6 < c.toNat := by decide +revert

/-- Region 0 and region 1 are the ones with an index (R67). -/
theorem indexed_eq_false_iff (r : Region) : r.indexed = false ↔ 2 ≤ r.code.toNat := by cases r <;> decide

/-- The ARGs that INSPECT refuses (R67). -/
theorem decodeInspect_illegal_iff (arg : Word) : (∃ why, decodeInspect arg = .illegal why) ↔
    (arg.toNat / 4096 ≠ 0 ∨ 6 < arg.toNat / 256 % 16 ∨ (2 ≤ arg.toNat / 256 % 16 ∧ arg.toNat % 256 ≠ 0)) := by
  have hindex : indexField arg = 0#8 ↔ arg.toNat % 256 = 0 := by
    rw [← BitVec.toNat_inj, toNat_indexField]; rfl
  rw [← toNat_regionField, ne_eq, ne_eq, ← hindex, ← zeroField_eq_zero_iff]
  unfold decodeInspect
  split
  next hzero => exact iff_of_true ⟨_, rfl⟩ (.inl hzero)
  next hzero =>
    split
    next hnone => exact iff_of_true ⟨_, rfl⟩ (.inr (.inl ((regionOfCode_eq_none_iff _).mp hnone)))
    next r hsome =>
      have hcode : ¬ 6 < (regionField arg).toNat := by
        rw [← regionOfCode_eq_none_iff, hsome]; exact Option.some_ne_none r
      have hindexed := indexed_eq_false_iff r
      rw [code_of_regionOfCode hsome] at hindexed
      simp only [hindexed, not_not.mp hzero, not_true_eq_false, hcode, false_or]
      split
      next hbad => exact iff_of_true ⟨_, rfl⟩ hbad
      next hgood => exact iff_of_false (fun ⟨_, h⟩ => by cases h) hgood

end Sys2Proof

namespace Sys2Proof.Proofs
open Sys2Proof.Machine

/-- Settles O6: OPC selects the command's own equation of the decoder, and each operand field holds what was put there. -/
theorem decodeOfEncode : Obligations.DecodeOfEncode := by
  intro i hwf
  cases i with
  | seed bytes => exact ⟨decode_commandWord_seed _ _, (Laws.EncodeForm.seed bytes hwf).2.2⟩
  | nextWord => exact ⟨decode_commandWord_nextWord _ _, (Laws.EncodeForm.nextWord hwf).2.2⟩
  | nextBytes count =>
    obtain ⟨hlow, hhigh⟩ : CountFits count := of_decide_eq_true hwf
    have hcount : (BitVec.ofInt 32 count).toInt = count := BitVec.toInt_ofInt_eq_self (by decide) hlow hhigh
    refine ⟨?_, (Laws.EncodeForm.nextBytes count hwf).2.2⟩
    exact (decode_commandWord_nextBytes _ _).trans (by rw [Instr.arg, hcount])
  | inspect region index =>
    have hfits : IndexFits region index := of_decide_eq_true hwf
    refine ⟨?_, (Laws.EncodeForm.inspect region index hwf).2.2⟩
    exact (decode_commandWord_inspect _ _).trans (decodeInspect_inspectArg hfits)

/-- Settles O7: the word is built from the command's OPC, and that OPC's equation of the decoder determines ARG. -/
theorem encodeOfDecode : Obligations.EncodeOfDecode := by
  rintro ⟨word, payload⟩ i hcomplete hdecode
  obtain ⟨arg, rfl⟩ : ∃ arg, word = commandWord i.opcode arg := ⟨_, word_of_decode hdecode⟩
  have hlength : payload.length = payloadLength (commandWord i.opcode arg) := hcomplete
  have hnil : i.opcode ≠ 0x01#8 → payload = [] := fun h =>
    List.eq_nil_of_length_eq_zero (hlength.trans (payloadLength_commandWord_of_ne h arg))
  cases i with
  | seed bytes =>
    obtain rfl : payload = bytes := by simpa [Instr.opcode, decode_commandWord_seed] using hdecode
    have hlen : payload.length = arg.toNat := hlength.trans (payloadLength_commandWord_seed arg)
    refine ⟨decide_eq_true (hlen.trans_lt arg.isLt), ?_⟩
    simp [encode, Instr.arg, Instr.payload, hlen]
  | nextWord =>
    obtain rfl : arg = 0#32 := by simpa [Instr.opcode, decode_commandWord_nextWord] using hdecode
    rw [hnil (by decide)]
    exact ⟨rfl, rfl⟩
  | nextBytes count =>
    obtain rfl : arg.toInt = count := by simpa [Instr.opcode, decode_commandWord_nextBytes] using hdecode
    rw [hnil (by simp [Instr.opcode])]
    refine ⟨decide_eq_true ⟨BitVec.le_toInt arg, BitVec.toInt_lt⟩, ?_⟩
    simp [encode, Instr.arg, Instr.payload]
  | inspect region index =>
    obtain ⟨hzero, r, hcode, hfits, heq⟩ := decodeInspect_command ((decode_commandWord_inspect arg payload).symm.trans hdecode)
    cases heq
    rw [hnil (by simp [Instr.opcode])]
    refine ⟨decide_eq_true hfits, ?_⟩
    simp [encode, Instr.arg, Instr.payload, inspectArg_of_fields hzero hcode]

/-- Settles O10: RSV is looked at first; then each OPC has its equation of the decoder. -/
theorem illegalWordsAreExactly : Obligations.IllegalWordsAreExactly := by
  rintro ⟨word, payload⟩
  by_cases hrsv : rsvField word = 0#24
  · obtain ⟨opc, arg, rfl⟩ : ∃ opc arg, word = commandWord opc arg := ⟨_, _, (commandWord_opcField_argField hrsv).symm⟩
    simp only [CommandIsIllegal, rsvField_commandWord, opcField_commandWord, argField_commandWord, ne_eq,
      not_true_eq_false, false_or]
    obtain hreserved | rfl | rfl | rfl | rfl := reserved_or_opcode opc
    · exact iff_of_true ⟨_, decode_commandWord_reserved arg payload hreserved⟩ (by tauto)
    · simp [decode_commandWord_seed]
    · by_cases harg : arg = 0#32
      · simp [decode_commandWord_nextWord, harg]
      · simp [decode_commandWord_nextWord, harg]
    · simp [decode_commandWord_nextBytes]
    · simp [decode_commandWord_inspect, decodeInspect_illegal_iff]
  · exact iff_of_true ⟨_, decode_of_rsvField_ne_zero hrsv⟩ (.inl hrsv)

/-- Settles O14: HAS_INSPECT is asked for at OPC 0x04 only, and there without it the word is Illegal. -/
theorem blockWithoutInspect : Obligations.BlockWithoutInspect := by
  intro t
  constructor
  · intro hopc
    by_cases hrsv : rsvField t.word = 0#24
    · exact ⟨.inspectAbsent, by simp [decodeWith, hrsv, hopc]⟩
    · exact ⟨.reservedBits, by simp [decodeWith, hrsv]⟩
  · intro hopc
    unfold decodeWith
    split
    · rfl
    · split
      case h_4 h => exact absurd (BitVec.eq_of_toNat_eq h) hopc
      all_goals rfl

/-- Settles O8: eight closed words, evaluated. -/
theorem decodesWordsOfTheSpec : Obligations.DecodesWordsOfTheSpec := by
  unfold Obligations.DecodesWordsOfTheSpec
  decide

/-- Settles O15: the seven lines are evaluated; a word of NEXTB is OPC 0x03 over the two's complement of the count. -/
theorem assemblesLinesOfTheSpec : Obligations.AssemblesLinesOfTheSpec := by
  refine ⟨by decide, by decide, by decide, by decide, by decide, by decide, by decide, fun n => ?_⟩
  rw [show (encode (.nextBytes n)).word = commandWord 0x03#8 (BitVec.ofInt 32 n) from rfl, toNat_commandWord,
    Nat.cast_add, BitVec.toNat_ofInt, Int.toNat_of_nonneg (Int.emod_nonneg n (by decide))]
  rfl

end Sys2Proof.Proofs
end

section
/-! PROOFS. The word stream (R121, R130, R133): how far a run of takes moves the cursor and how many GEN_STEPs it runs (R164),
and the bytes NEXT_BYTES cuts from it (R123 to R126, R131). -/

namespace Sys2Proof.Machine

/-! ### Runs of takes (R121) -/

theorem takeWords_one (e : Engine) : takeWords 1 e = ⟨[(takeWord e).value], (takeWord e).engine⟩ := rfl

/-- A run of takes is a run and then another. -/
theorem takeWords_add (k l : Nat) (e : Engine) : takeWords (k + l) e =
    ⟨(takeWords k e).value ++ (takeWords l (takeWords k e).engine).value, (takeWords l (takeWords k e).engine).engine⟩ := by
  induction k generalizing e with
  | zero => rw [Nat.zero_add]; rfl
  | succ k ih => rw [Nat.add_right_comm]; simp only [takeWords, ih, List.cons_append]

/-- The last take of a run. -/
theorem takeWords_succ_engine (k : Nat) (e : Engine) :
    (takeWords (k + 1) e).engine = (takeWord (takeWords k e).engine).engine := by
  rw [takeWords_add, takeWords_one]

@[simp] theorem takeWords_length (k : Nat) (e : Engine) : (takeWords k e).value.length = k := by
  induction k generalizing e with
  | zero => rfl
  | succ k ih => rw [takeWords, List.length_cons, ih]

/-- Word `j` of a run is the one taken after the `j` before it. -/
theorem takeWords_getElem? {j k : Nat} (h : j < k) (e : Engine) :
    (takeWords k e).value[j]? = some (takeWord (takeWords j e).engine).value := by
  obtain ⟨l, rfl⟩ := Nat.exists_eq_add_of_lt h
  rw [Nat.add_assoc, takeWords_add, List.getElem?_append_right (takeWords_length j e).le, takeWords_length, Nat.sub_self,
    takeWords, List.getElem?_cons_zero]

@[simp] theorem takeWords_seeded (k : Nat) (e : Engine) : (takeWords k e).engine.seeded = e.seeded := by
  induction k with
  | zero => rfl
  | succ k ih => rw [takeWords_succ_engine, takeWord_seeded, ih]

/-! ### The cursor and the GEN_STEPs of a run (R133, R164) -/

/-- After `k` takes, `g` GEN_STEPs have run and `c` words are left: each step gave 256 words, and after a step at most 255 of
them are left. But for the steps only the cursor has changed. -/
theorem takeWords_engine_eq (k : Nat) (e : Engine) :
    ∃ g c, (takeWords k e).engine = { genSteps g e with randcnt := c } ∧ c + k = e.randcnt + 256 * g ∧
      (g = 0 ∨ c ≤ 255) := by
  induction k with
  | zero => exact ⟨0, e.randcnt, rfl, rfl, .inl rfl⟩
  | succ k ih =>
    obtain ⟨g, c, hengine, hcount, hlast⟩ := ih
    rw [takeWords_succ_engine, hengine]
    by_cases hc : c = 0
    · refine ⟨g + 1, 255, ?_, by omega, .inr (by omega)⟩
      rw [takeWord_of_zero (e := { genSteps g e with randcnt := c }) hc, genStep_setRandcnt, genSteps]
    · refine ⟨g, c - 1, ?_, by omega, by omega⟩
      rw [takeWord_of_pos (e := { genSteps g e with randcnt := c }) hc]

/-- With enough words left no GEN_STEP runs (R121). -/
theorem takeWords_engine_of_le {k : Nat} {e : Engine} (hk : k ≤ e.randcnt) (he : e.randcnt ≤ 256) :
    (takeWords k e).engine = { e with randcnt := e.randcnt - k } := by
  obtain ⟨g, c, hengine, hcount, hlast⟩ := takeWords_engine_eq k e
  obtain rfl : g = 0 := by omega
  obtain rfl : c = e.randcnt - k := by omega
  exact hengine

/-- `k` takes run at most `k div 256 + 1` GEN_STEPs (R164). -/
theorem takeWords_runs_few_steps (k : Nat) {e : Engine} (he : e.randcnt ≤ 256) :
    ∃ g, g ≤ k / 256 + 1 ∧
      (takeWords k e).engine = { genSteps g e with randcnt := (takeWords k e).engine.randcnt } ∧
      (takeWords k e).engine.randcnt ≤ 256 := by
  obtain ⟨g, c, hengine, hcount, hlast⟩ := takeWords_engine_eq k e
  rw [hengine]
  exact ⟨g, by omega, rfl, show c ≤ 256 by omega⟩

/-- The word a take gives when `c` words of the block after `g` GEN_STEPs are left (R120, R121). -/
theorem takeWord_value_genSteps (g c : Nat) (e : Engine) :
    (takeWord { genSteps g e with randcnt := c }).value =
      if c = 0 then readEntry (genSteps (g + 1) e).randrsl 255#8
      else readEntry (genSteps g e).randrsl (BitVec.ofNat 8 (c - 1)) := by
  split
  next hc =>
    rw [takeWord_of_zero (e := { genSteps g e with randcnt := c }) hc, genStep_setRandcnt, genSteps]
  next hc => rw [takeWord_of_pos (e := { genSteps g e with randcnt := c }) hc]

/-- Word `j` of the stream from a full cursor (R133). -/
theorem takeWord_value_of_full {e : Engine} (he : e.randcnt = 256) (j : Nat) :
    (takeWord (takeWords j e).engine).value =
      readEntry (genSteps (j / 256) e).randrsl (BitVec.ofNat 8 (255 - j % 256)) := by
  obtain ⟨g, c, hengine, hcount, hlast⟩ := takeWords_engine_eq j e
  rw [hengine, takeWord_value_genSteps]
  split
  · rw [show j / 256 = g + 1 by omega, show 255 - j % 256 = 255 by omega]
  · rw [show j / 256 = g by omega, show 255 - j % 256 = c - 1 by omega]

/-! ### NEXT_BYTES as a run of takes (R123, R130) -/

/-- `q` whole words are the bytes of the next `q` words of the stream (R124). -/
theorem takeWholeWords_eq (q : Nat) (e : Engine) :
    takeWholeWords q e = ⟨(takeWords q e).value.flatMap wholeWordBytes, (takeWords q e).engine⟩ := by
  induction q generalizing e with
  | zero => rfl
  | succ q ih => simp only [takeWholeWords, takeWords, ih, List.flatMap_cons]

/-- The words of the two tails when `r` bytes remain (R125, R126). -/
def tailWords (r : Nat) : Nat := (if 2 ≤ r then 1 else 0) + if r % 2 = 1 then 1 else 0

theorem wordsTaken_eq (n : Nat) : wordsTaken n = n / 4 + tailWords (n % 4) := Nat.add_assoc _ _ _

/-- The bytes the two tails cut from their words when `r` bytes remain (R125, R126). -/
def tailBytes (r : Nat) (ws : List Word) : List Byte :=
  let two := if 2 ≤ r then ws.take 1 else []
  let one := if r % 2 = 1 then ws.drop two.length else []
  two.flatMap twoByteTail ++ one.flatMap oneByteTail

/-- Below four bytes only the tails run (R125, R126). -/
theorem takeBytes_of_lt_four {r : Nat} (h : r < 4) (e : Engine) :
    takeBytes r e = ⟨tailBytes r (takeWords (tailWords r) e).value, (takeWords (tailWords r) e).engine⟩ := by
  match r, h with
  | 0, _ => rfl
  | 1, _ => rfl
  | 2, _ => rfl
  | 3, _ => rfl

theorem tailBytes_length {r : Nat} (h : r < 4) {ws : List Word} (hws : ws.length = tailWords r) :
    (tailBytes r ws).length = r := by
  match r, h, ws, hws with
  | 0, _, [], _ => rfl
  | 1, _, [_], _ => rfl
  | 2, _, [_], _ => rfl
  | 3, _, [_, _], _ => rfl

/-- A request split at a multiple of four bytes takes the same words (R131). -/
theorem takeBytes_four_mul_add (q b : Nat) (e : Engine) : takeBytes (4 * q + b) e =
    ⟨(takeBytes (4 * q) e).value ++ (takeBytes b (takeBytes (4 * q) e).engine).value,
      (takeBytes b (takeBytes (4 * q) e).engine).engine⟩ := by
  induction q generalizing e with
  | zero => rw [Nat.mul_zero, Nat.zero_add, takeBytes_zero]; rfl
  | succ q ih =>
    rw [Nat.mul_succ, Nat.add_right_comm, takeBytes_add_four, takeBytes_add_four, ih]
    simp only [List.append_assoc]

/-- A multiple of four bytes is whole words alone (R124). -/
theorem takeBytes_four_mul (q : Nat) (e : Engine) : takeBytes (4 * q) e = takeWholeWords q e := by
  induction q generalizing e with
  | zero => rfl
  | succ q ih => rw [Nat.mul_succ, takeBytes_add_four, ih]; rfl

/-- NEXT_BYTES(n) is a run of `W(n)` takes: whole words, and then the tails (R123, R130). -/
theorem takeBytes_eq (n : Nat) (e : Engine) : takeBytes n e =
    ⟨((takeWords (wordsTaken n) e).value.take (n / 4)).flatMap wholeWordBytes ++
        tailBytes (n % 4) ((takeWords (wordsTaken n) e).value.drop (n / 4)),
      (takeWords (wordsTaken n) e).engine⟩ := by
  conv_lhs => rw [← Nat.div_add_mod n 4, takeBytes_four_mul_add, takeBytes_four_mul, takeWholeWords_eq,
    takeBytes_of_lt_four (Nat.mod_lt n (by decide))]
  rw [wordsTaken_eq, takeWords_add, List.take_left' (takeWords_length _ _), List.drop_left' (takeWords_length _ _)]

theorem takeBytes_engine (n : Nat) (e : Engine) : (takeBytes n e).engine = (takeWords (wordsTaken n) e).engine := by
  rw [takeBytes_eq]

theorem takeWholeWords_length (q : Nat) (e : Engine) : (takeWholeWords q e).value.length = 4 * q := by
  induction q generalizing e with
  | zero => rfl
  | succ q ih => rw [takeWholeWords, List.length_append, ih, Nat.mul_succ, Nat.add_comm]; rfl

theorem takeBytes_length (n : Nat) (e : Engine) : (takeBytes n e).value.length = n := by
  have hr : n % 4 < 4 := Nat.mod_lt n (by decide)
  conv_lhs => rw [← Nat.div_add_mod n 4, takeBytes_four_mul_add, takeBytes_four_mul, takeBytes_of_lt_four hr]
  rw [List.length_append, takeWholeWords_length, tailBytes_length hr (takeWords_length _ _), Nat.div_add_mod]

end Sys2Proof.Machine

namespace Sys2Proof.Proofs
open Sys2Proof.Machine

/-- Settles O29: the words taken and the words left add up to 256 for the cursor and each step. -/
theorem wordStreamFromFullCursor : Obligations.WordStreamFromFullCursor := by
  intro e k he hk
  refine ⟨?_, takeWords_length k e, fun j hj => ?_⟩
  · obtain ⟨g, c, hengine, hcount, hlast⟩ := takeWords_engine_eq k e
    rw [hengine, show (k - 1) / 256 = g by omega, show 255 - (k - 1) % 256 = c by omega]
  · rw [takeWords_getElem? hj, takeWord_value_of_full he]

/-- Settles O30: NEXT_BYTES(n) is a run of `W(n)` takes. -/
theorem nextBytesTakesWordsInOrder : Obligations.NextBytesTakesWordsInOrder := by
  intro s n h
  refine ⟨_, _, exec_nextBytes_of_seeded n h, rfl, rfl, takeBytes_engine n s.engine, takeBytes_length n s.engine, ?_⟩
  rw [takeBytes_eq]
  have hone : ∀ ws : List Word, ws.flatMap oneByteTail = ws.map fun w => w.extractLsb' 0 8 := fun ws =>
    List.flatMap_pure_eq_map _ ws
  simp only [tailBytes, hone, ← List.append_assoc]
  rfl

/-- Settles O35: the bytes and the engine of a split request are those of the whole one. -/
theorem nextBytesSplitsAtMultiplesOfFour : Obligations.NextBytesSplitsAtMultiplesOfFour := by
  intro s a b h ha
  obtain ⟨q, rfl⟩ := Nat.dvd_of_mod_eq_zero ha
  have hall := exec_nextBytes_of_seeded (4 * q + b) h
  rw [takeBytes_four_mul_add] at hall
  exact ⟨_, _, _, _, _, exec_nextBytes_of_seeded (4 * q) h,
    exec_nextBytes_of_seeded b ((takeBytes_seeded (4 * q) s.engine).trans h), hall, rfl, rfl, rfl, rfl⟩

/-- Settles O37: enough words are left for the `W(n)` takes. -/
theorem extractionFrameWithoutRefill : Obligations.ExtractionFrameWithoutRefill := by
  intro s n h hwords hcursor
  have hbytes := exec_nextBytes_of_seeded n h
  rw [takeBytes_engine, takeWords_engine_of_le hwords hcursor] at hbytes
  exact ⟨_, hbytes⟩

/-- Settles O38: both commands are runs of takes, of 1 and of `W(n)`. -/
theorem extractionRunsFewSteps : Obligations.ExtractionRunsFewSteps := by
  intro s h hcursor
  constructor
  · obtain ⟨g, hg, hengine, hcursor'⟩ := takeWords_runs_few_steps 1 hcursor
    exact ⟨_, g, exec_nextWord_of_seeded h, hg, hengine, hcursor'⟩
  · intro n
    obtain ⟨g, hg, hengine, hcursor'⟩ := takeWords_runs_few_steps (wordsTaken n) hcursor
    have hbytes := exec_nextBytes_of_seeded n h
    rw [takeBytes_engine] at hbytes
    exact ⟨_, g, hbytes, hg, hengine, hcursor'⟩

/-- Settles O27: a take with words left. -/
theorem nextWordReturnsCursorWord : Obligations.NextWordReturnsCursorWord := by
  intro s h hpos _
  rw [exec_nextWord_of_seeded h, takeWord_of_pos hpos.ne']
  rfl

/-- Settles O28: a take with an empty cursor; a step leaves in `bb` the word it wrote last. -/
theorem nextWordRefillsEmptyCursor : Obligations.NextWordRefillsEmptyCursor := by
  intro s h hzero
  refine ⟨?_, genStep_bb s.engine⟩
  rw [exec_nextWord_of_seeded h, takeWord_of_zero hzero, genStep_bb]
  rfl

/-- Settles O32: below four bytes only the tails run. -/
theorem nextBytesTails : Obligations.NextBytesTails := by
  intro s h w₁ w₂
  exact ⟨exec_nextBytes_of_seeded 1 h, exec_nextBytes_of_seeded 2 h, exec_nextBytes_of_seeded 3 h⟩

end Sys2Proof.Proofs
end

section
/-! PROOFS. The step, one equation per shape of the inputs to come (R54, R60, R170, R171), and what every step keeps: SEEDED
until a reset (R27), the invariant (R24, R34), and the ignorance of unseeded elements (R27, R36). -/

namespace Sys2Proof.Machine

/-! ### The step for each shape of the inputs to come (R60, R170, R171) -/

/-- With nothing to take the block waits (R171). -/
theorem step_of_nil {s : State} (hin : s.inbox = []) : step s = .next s := by
  rw [step, deliver, hin]

theorem step_of_reset {s : State} {rest : List HostInput} (hin : s.inbox = .reset :: rest) :
    step s = .next ((s.setEngine Engine.afterReset).setInbox rest) := by
  rw [step, deliver, hin]; rfl

/-- A command whose payload has not all arrived waits for it (R60). -/
theorem step_of_part {s : State} {t : Transaction} {rest : List HostInput} {i : Instr}
    (hin : s.inbox = .transaction t :: rest) (hdecode : decode t = .command i)
    (hpart : t.payload.length < payloadLength t.word) : step s = awaitPayload rest s := by
  simp only [step, deliver, hin, receive, hdecode, if_neg hpart.ne, if_pos hpart]

/-- More bytes than the payload are no transaction (R60, R71). -/
theorem step_of_surplus {s : State} {t : Transaction} {rest : List HostInput} {i : Instr}
    (hin : s.inbox = .transaction t :: rest) (hdecode : decode t = .command i)
    (hsurplus : payloadLength t.word < t.payload.length) : step s = .refused .surplusPayload := by
  simp only [step, deliver, hin, receive, hdecode, if_neg hsurplus.ne', if_neg hsurplus.not_gt]

/-- A reset discards a transaction still in delivery (R170). -/
theorem step_of_part_reset {s : State} {t : Transaction} {rest : List HostInput} {i : Instr}
    (hin : s.inbox = .transaction t :: .reset :: rest) (hdecode : decode t = .command i)
    (hpart : t.payload.length < payloadLength t.word) :
    step s = .next ((s.setEngine Engine.afterReset).setInbox rest) := by
  rw [step_of_part hin hdecode hpart, awaitPayload, resetEvent]

/-- Everything a step that gives a next state can have done: waited, reset the block, answered IllegalCommand, or run a
command. -/
theorem step_next {s u : State} (h : step s = .next u) :
    u = s ∨
    (s.ResetIsNext ∧ ∃ rest, u = (s.setEngine Engine.afterReset).setInbox rest) ∨
    (∃ rest, u = (s.setInbox rest).addResponse ⟨.illegalCommand, 0#32, []⟩) ∨
    ∃ i rest, exec i (s.setInbox rest) = .next u := by
  obtain ⟨-, rfl⟩ | ⟨rest, hin, -⟩ | ⟨t, rest, hin, hreceive⟩ := deliver_next h
  · exact .inl rfl
  · rw [step_of_reset hin] at h
    cases h
    exact .inr (.inl ⟨.inl ⟨rest, hin⟩, rest, rfl⟩)
  · obtain ⟨why, -, rfl⟩ | ⟨i, -, -, hexec⟩ | ⟨i, hdecode, hpart, hwait⟩ := receive_next hreceive
    · exact .inr (.inr (.inl ⟨rest, rfl⟩))
    · exact .inr (.inr (.inr ⟨i, rest, hexec⟩))
    · obtain ⟨-, rfl⟩ | ⟨more, rfl, -⟩ := awaitPayload_next hwait
      · exact .inl rfl
      · obtain hlt | hgt := Nat.lt_or_gt_of_ne hpart
        · rw [step_of_part_reset hin hdecode hlt] at h
          cases h
          exact .inr (.inl ⟨.inr ⟨t, more, hin, hlt⟩, more, rfl⟩)
        · rw [step_of_surplus hin hdecode hgt] at h
          cases h

/-! ### What a command can do to the engine (R11, R90, R121) -/

/-- INSPECT on a seeded instance (R140). -/
theorem exec_inspect_of_seeded {s : State} (region : Region) (index : Index) (h : s.engine.seeded = true) :
    exec (.inspect region index) s = .next (s.addResponse ⟨.ok, readRegion region index s.engine, []⟩) := by
  rw [exec, execInspect_eq, if_neg (by simp [h]), respondOk]

/-- On an unseeded instance a command answers the same whatever the elements hold: it leaves them alone, but for SEED, whose
engine does not depend on them (R92, R143, R151). -/
theorem exec_of_unseeded (i : Instr) : (∃ bytes, i = .seed bytes) ∨ ∃ r, ∀ s : State, s.engine.seeded = false →
    exec i s = .next (s.addResponse r) := by
  cases i with
  | seed bytes => exact .inl ⟨bytes, rfl⟩
  | nextWord => exact .inr ⟨_, fun _ => exec_nextWord_of_unseeded⟩
  | nextBytes count => exact .inr ⟨_, fun _ => exec_nextBytes_of_unseeded count⟩
  | inspect region index =>
    by_cases hregion : region = .status
    · subst hregion
      exact .inr ⟨⟨.ok, 0#32, []⟩, fun s hs => by rw [exec_inspect_status, statusWord_of_unseeded hs]⟩
    · exact .inr ⟨_, fun _ => exec_inspect_of_unseeded index hregion⟩

/-- A command leaves the engine as it was, seeds it, or takes words from a seeded one. -/
theorem exec_next_engine {i : Instr} {s t : State} (h : exec i s = .next t) :
    t.engine = s.engine ∨ (∃ bytes, t.engine = seedEngine bytes s.engine) ∨
      (s.engine.seeded = true ∧ ∃ k, t.engine = (takeWords k s.engine).engine) := by
  cases hseeded : s.engine.seeded with
  | true =>
    cases i with
    | seed bytes =>
      cases h
      exact .inr (.inl ⟨bytes, rfl⟩)
    | nextWord =>
      rw [exec_nextWord_of_seeded hseeded] at h
      cases h
      exact .inr (.inr ⟨rfl, 1, rfl⟩)
    | nextBytes count =>
      obtain ⟨n, rfl⟩ | hneg := (le_or_gt 0 count).imp_left Int.eq_ofNat_of_zero_le
      · rw [exec_nextBytes_of_seeded n hseeded] at h
        cases h
        exact .inr (.inr ⟨rfl, wordsTaken n, takeBytes_engine n s.engine⟩)
      · rw [exec_nextBytes_of_neg hseeded hneg] at h
        cases h
        exact .inl rfl
    | inspect region index =>
      rw [exec_inspect_of_seeded region index hseeded] at h
      cases h
      exact .inl rfl
  | false =>
    obtain ⟨bytes, rfl⟩ | ⟨r, hanswer⟩ := exec_of_unseeded i
    · cases h
      exact .inr (.inl ⟨bytes, rfl⟩)
    · rw [hanswer s hseeded] at h
      cases h
      exact .inl rfl

/-- No command clears SEEDED (R27). -/
theorem exec_keeps_seeded {i : Instr} {s t : State} (h : exec i s = .next t) (hs : s.engine.seeded = true) :
    t.engine.seeded = true := by
  obtain heq | ⟨bytes, heq⟩ | ⟨-, k, heq⟩ := exec_next_engine h
  · rw [heq, hs]
  · rw [heq, seedEngine_seeded]
  · rw [heq, takeWords_seeded, hs]

/-! ### The invariant (R24, R34) -/

/-- SEED leaves a legal engine: a full cursor, and in `bb` the word its last GEN_STEP wrote last (R90, R24). -/
theorem seedEngine_legal (bytes : List Byte) (e : Engine) : (seedEngine bytes e).Legal := by
  refine ⟨(seedEngine_randcnt bytes e).le, ?_⟩
  rw [seedEngine_eq_genStep]
  exact genStep_bb _

/-- The cursor can be moved within its range (R34). -/
theorem Engine.legal_setRandcnt {e : Engine} {c : Nat} (hbb : e.bb = readEntry e.randrsl 255#8) (hc : c ≤ 256) :
    ({ e with randcnt := c } : Engine).Legal := ⟨hc, hbb⟩

/-- A take keeps an engine legal: only a refill changes `bb` and `randrsl`, and it is a GEN_STEP (R120, R24). -/
theorem takeWord_legal {e : Engine} (h : e.Legal) : (takeWord e).engine.Legal := by
  obtain ⟨hcursor, hbb⟩ := h
  by_cases hzero : e.randcnt = 0
  · rw [takeWord_of_zero hzero]
    exact Engine.legal_setRandcnt (genStep_bb e) (by decide)
  · rw [takeWord_of_pos hzero]
    exact Engine.legal_setRandcnt hbb (by omega)

theorem takeWords_legal {e : Engine} (h : e.Legal) (k : Nat) : (takeWords k e).engine.Legal := by
  induction k with
  | zero => exact h
  | succ k ih => rw [takeWords_succ_engine]; exact takeWord_legal ih

/-- Every command keeps the invariant (R34). -/
theorem exec_keeps_inv {i : Instr} {s t : State} (hinv : s.Inv) (h : exec i s = .next t) : t.Inv := by
  intro ht
  obtain heq | ⟨bytes, heq⟩ | ⟨hs, k, heq⟩ := exec_next_engine h
  · rw [heq] at ht ⊢
    exact hinv ht
  · rw [heq]
    exact seedEngine_legal bytes s.engine
  · rw [heq]
    exact takeWords_legal (hinv hs) k

/-! ### Commands and the host interface (R54) -/

/-- A command leaves the inputs to come as they were (R54). -/
theorem exec_next_inbox {i : Instr} {s u : State} (h : exec i s = .next u) : u.inbox = s.inbox := by
  obtain ⟨e, r, hanswer⟩ := exec_answers i s
  obtain rfl : (s.setEngine e).addResponse r = u := by simpa using hanswer.symm.trans h
  rfl

/-- A command does not read the inputs to come (R54). -/
theorem exec_setInbox {i : Instr} {s u : State} (h : exec i s = .next u) (inbox : List HostInput) :
    exec i (s.setInbox inbox) = .next (u.setInbox inbox) := by
  obtain ⟨e, r, hanswer⟩ := exec_answers_of_engine i s.engine
  obtain rfl : (⟨e, s.inbox, s.outbox ++ [r]⟩ : State) = u := by
    simpa using (hanswer s.inbox s.outbox).symm.trans h
  exact hanswer inbox s.outbox

/-! ### Instances alike up to unseeded elements (R27) -/

theorem State.Alike.refl (s : State) : s.Alike s := ⟨rfl, rfl, rfl, fun _ => rfl⟩

/-- Of a seeded instance everything is observable (R27). -/
theorem State.Alike.eq_of_seeded {s₁ s₂ : State} (h : s₁.Alike s₂) (hs : s₁.engine.seeded = true) : s₁ = s₂ := by
  obtain ⟨hinbox, houtbox, -, hengine⟩ := h
  cases s₁
  cases s₂
  simp only [State.mk.injEq]
  exact ⟨hengine hs, hinbox, houtbox⟩

theorem State.Alike.setInbox {s₁ s₂ : State} (h : s₁.Alike s₂) (inbox : List HostInput) :
    (s₁.setInbox inbox).Alike (s₂.setInbox inbox) := by
  obtain ⟨-, houtbox, hengine⟩ := h
  exact ⟨rfl, houtbox, hengine⟩

theorem State.Alike.addResponse {s₁ s₂ : State} (h : s₁.Alike s₂) (r : Response) :
    (s₁.addResponse r).Alike (s₂.addResponse r) := by
  obtain ⟨hinbox, houtbox, hengine⟩ := h
  exact ⟨hinbox, congrArg (· ++ [r]) houtbox, hengine⟩

/-- The same engine put into both makes them equal in everything. -/
theorem State.Alike.setEngine {s₁ s₂ : State} (h : s₁.Alike s₂) (e : Engine) :
    (s₁.setEngine e).Alike (s₂.setEngine e) := by
  obtain ⟨hinbox, houtbox, -⟩ := h
  exact ⟨hinbox, houtbox, rfl, fun _ => rfl⟩

/-- No command tells alike instances apart (R27). -/
theorem exec_alike {i : Instr} {s₁ s₂ t₁ : State} (h : s₁.Alike s₂) (hexec : exec i s₁ = .next t₁) :
    ∃ t₂, exec i s₂ = .next t₂ ∧ t₁.Alike t₂ := by
  cases hs₁ : s₁.engine.seeded with
  | true =>
    obtain rfl := h.eq_of_seeded hs₁
    exact ⟨t₁, hexec, .refl t₁⟩
  | false =>
    obtain ⟨bytes, rfl⟩ | ⟨r, hanswer⟩ := exec_of_unseeded i
    · rw [exec_seed, seedEngine_eq bytes s₁.engine s₂.engine] at hexec
      cases hexec
      exact ⟨_, exec_seed bytes s₂, (h.setEngine _).addResponse _⟩
    · have ⟨_, _, hseeded, _⟩ := h
      rw [hanswer s₁ hs₁] at hexec
      cases hexec
      exact ⟨_, hanswer s₂ (hseeded ▸ hs₁), h.addResponse r⟩

end Sys2Proof.Machine

namespace Sys2Proof.Proofs
open Sys2Proof.Machine

/-- Settles O45: the four things a step can have done. -/
theorem stepKeepsInvariant : Obligations.StepKeepsInvariant := by
  intro s t hinv h
  obtain rfl | ⟨-, rest, rfl⟩ | ⟨rest, rfl⟩ | ⟨i, rest, hexec⟩ := step_next h
  · exact hinv
  · exact fun hreset => absurd hreset Bool.false_ne_true
  · exact hinv
  · exact exec_keeps_inv (s := s.setInbox rest) hinv hexec

/-- Settles O47: the inputs to come are the same and decide which of the step's equations applies; a command's own case is
`exec_alike`. -/
theorem unseededElementsAreUnobservable : Obligations.UnseededElementsAreUnobservable := by
  intro s₁ s₂ t₁ halike h
  have ⟨hinbox, _, _⟩ := halike
  obtain ⟨hin, rfl⟩ | ⟨rest, hin, -⟩ | ⟨t, rest, hin, hreceive⟩ := deliver_next h
  · exact ⟨s₂, step_of_nil (hinbox ▸ hin), halike⟩
  · rw [step_of_reset hin] at h
    cases h
    exact ⟨_, step_of_reset (hinbox ▸ hin), (halike.setEngine _).setInbox rest⟩
  · obtain ⟨why, hwhy, rfl⟩ | ⟨i, hdecode, hcomplete, hexec⟩ | ⟨i, hdecode, hpart, hwait⟩ := receive_next hreceive
    · exact ⟨_, step_of_commandIsIllegal (hinbox ▸ hin) ⟨why, hwhy⟩, (halike.setInbox rest).addResponse _⟩
    · rw [step_of_complete (hinbox ▸ hin) hdecode hcomplete]
      exact exec_alike (halike.setInbox rest) hexec
    · obtain hlt | hgt := Nat.lt_or_gt_of_ne hpart
      · obtain ⟨rfl, rfl⟩ | ⟨more, rfl, -⟩ := awaitPayload_next hwait
        · exact ⟨s₂, step_of_part (hinbox ▸ hin) hdecode hlt, halike⟩
        · rw [step_of_part_reset hin hdecode hlt] at h
          cases h
          exact ⟨_, step_of_part_reset (hinbox ▸ hin) hdecode hlt, (halike.setEngine _).setInbox more⟩
      · rw [step_of_surplus hin hdecode hgt] at h
        cases h

/-- Settles O5: an input at the end of the list does not change which equation of the step applies, and a command does not
see it. -/
theorem stepIgnoresLaterInputs : Obligations.StepIgnoresLaterInputs := by
  intro s u x y rest hin hy h
  have hin' : (s.offer x).inbox = y :: (rest ++ [x]) := congrArg (· ++ [x]) hin
  cases y with
  | reset =>
    rw [step_of_reset hin] at h
    cases h
    exact step_of_reset hin'
  | transaction t =>
    cases hdecode : decode t with
    | illegal why =>
      rw [step_of_commandIsIllegal hin ⟨why, hdecode⟩] at h
      cases h
      exact step_of_commandIsIllegal hin' ⟨why, hdecode⟩
    | command i =>
      have hcomplete : t.Complete := (hy t rfl).resolve_left fun ⟨why, hwhy⟩ => by
        rw [hdecode] at hwhy
        cases hwhy
      rw [step_of_complete hin hdecode hcomplete] at h
      have hoffer : u.offer x = u.setInbox (rest ++ [x]) := by rw [State.offer, exec_next_inbox h]; rfl
      rw [step_of_complete hin' hdecode hcomplete, hoffer]
      exact exec_setInbox h (rest ++ [x])

/-- Settles O46: of the four things a step can have done only a reset clears SEEDED. -/
theorem onlyResetClearsSeeded : Obligations.OnlyResetClearsSeeded := by
  intro s t h hseeded hreset
  obtain rfl | ⟨hnext, -⟩ | ⟨rest, rfl⟩ | ⟨i, rest, hexec⟩ := step_next h
  · exact hseeded
  · exact absurd hnext hreset
  · exact hseeded
  · exact exec_keeps_seeded hexec hseeded

/-- Settles O1: the elements after reset, and the step with nothing to take. -/
theorem resetWaitsForCommand : Obligations.ResetWaitsForCommand :=
  ⟨rfl, rfl, rfl, step_of_nil rfl⟩

/-- Settles O2: both shapes of a reset to come step to the reset state with the later inputs. -/
theorem resetEventClearsSeeded : Obligations.ResetEventClearsSeeded :=
  ⟨fun _ _ hin => ⟨_, step_of_reset hin, rfl, rfl, rfl⟩,
    fun _ _ _ _ hin hdecode hpart => ⟨_, step_of_part_reset hin hdecode hpart, rfl, rfl, rfl⟩⟩

/-- Settles O3: the host places a table word with all of its payload, so its transaction is whole. -/
theorem stepRunsDecodedCommand : Obligations.StepRunsDecodedCommand := by
  refine ⟨fun s t rest i => step_of_complete, fun s nbits w i h => ?_⟩
  have hdecode : decode (tableTransaction nbits w) = .command i := by
    unfold decodeTableWord at h
    split at h
    · cases h; assumption
    · cases h
  exact step_of_complete (s := s.withFetchWord nbits w) rfl hdecode List.length_replicate

/-- Settles O4: a part transaction alone or followed by another, and one with too many bytes. -/
theorem partTransactionWaits : Obligations.PartTransactionWaits :=
  fun _ _ _ hdecode => ⟨fun hin hpart => step_of_part hin hdecode hpart,
    fun _ _ hin hpart => step_of_part hin hdecode hpart, fun _ hin hsurplus => step_of_surplus hin hdecode hsurplus⟩

/-- Settles O11: the step on an Illegal transaction. -/
theorem illegalWordIsRefused : Obligations.IllegalWordIsRefused :=
  fun _ _ _ => step_of_commandIsIllegal

/-- Settles O39: INSPECT answers the element `readRegion` selects; the cursor is small enough to be shown exactly. -/
theorem inspectReturnsElement : Obligations.InspectReturnsElement := by
  intro s k h hcursor answer
  have hinspect := fun region => exec_inspect_of_seeded region k h
  refine ⟨hinspect .mm, hinspect .randrsl, hinspect .aa, hinspect .bb, hinspect .cc, ⟨_, ?_, hinspect .randcnt⟩, ?_⟩
  · exact Nat.mod_eq_of_lt (by omega)
  · have hstatus : readRegion .status k s.engine = 1#32 := by rw [readRegion, statusWord, h]; rfl
    exact (hinspect .status).trans (by rw [hstatus]; rfl)

/-- Settles O44: after reset the instance is unseeded. -/
theorem resetMeetsInvariant : Obligations.ResetMeetsInvariant :=
  fun h => absurd h (by decide)

end Sys2Proof.Proofs
end

section
/-! PROOFS. SEED: the pre-scramble (R86), a seed pass group by group (R87, R88), and the state the command leaves (R80 to R92). -/

namespace Sys2Proof.Machine

/-! ### A seed pass, group by group (R87, R88) -/

/-- Group `n` of a pass writes entries `8n` to `8n+7`, with its mixed scratch registers (R87). -/
theorem readEntry_seedGroups_succ_mm (src : Engine → Block) {n : Nat} (hn : n < 32) (p : Pass) (j : Index) :
    readEntry (seedGroups src (n + 1) p).engine.mm j =
      if 8 * n ≤ j.toNat ∧ j.toNat < 8 * n + 8 then (seedGroups src (n + 1) p).scratch.entry (j.toNat - 8 * n)
      else readEntry (seedGroups src n p).engine.mm j := by
  have hbase : (BitVec.ofNat 8 (8 * n)).toNat = 8 * n := toNat_ofNat_index (by omega)
  have hj := j.isLt
  rw [seedGroups, seedGroup, readEntry_storeScratch, BitVec.toNat_sub, hbase]
  by_cases hgroup : 8 * n ≤ j.toNat ∧ j.toNat < 8 * n + 8
  · rw [if_pos hgroup, if_pos (by omega), show (2 ^ 8 - 8 * n + j.toNat) % 2 ^ 8 = j.toNat - 8 * n by omega]
  · rw [if_neg hgroup, if_neg (by omega)]

/-- Entries of the groups to come are as they were before the pass (R88). -/
theorem readEntry_seedGroups_mm_of_le (src : Engine → Block) (p : Pass) {n : Nat} (hn : n ≤ 32) {j : Index}
    (hj : 8 * n ≤ j.toNat) : readEntry (seedGroups src n p).engine.mm j = readEntry p.engine.mm j := by
  induction n with
  | zero => rfl
  | succ n ih => rw [readEntry_seedGroups_succ_mm src hn, if_neg (by omega), ih (by omega) (by omega)]

/-- An entry keeps what its group stored, whatever groups follow (R87). -/
theorem readEntry_seedGroups_mm_of_lt (src : Engine → Block) (p : Pass) {j k n : Nat} (hk : k < 8) (hjn : j < n)
    (hn : n ≤ 32) : readEntry (seedGroups src n p).engine.mm (BitVec.ofNat 8 (8 * j + k)) =
      (seedGroups src (j + 1) p).scratch.entry k := by
  have hentry : (BitVec.ofNat 8 (8 * j + k)).toNat = 8 * j + k := toNat_ofNat_index (by omega)
  induction n with
  | zero => exact absurd hjn (Nat.not_lt_zero j)
  | succ n ih =>
    rw [readEntry_seedGroups_succ_mm src hn, hentry]
    obtain rfl | hlt : j = n ∨ j < n := by omega
    · rw [if_pos (by omega), Nat.add_sub_cancel_left]
    · rw [if_neg (by omega), ih hlt (by omega)]

/-- The source words of a group depend on its eight entries alone (R87). -/
theorem addSource_congr {b c : Block} {i : Index}
    (h : ∀ d < 8, readEntry b (i + BitVec.ofNat 8 d) = readEntry c (i + BitVec.ofNat 8 d)) (r : Scratch) :
    addSource b i r = addSource c i r := by
  have h0 := h 0 (by decide)
  rw [show i + BitVec.ofNat 8 0 = i from BitVec.add_zero i] at h0
  simp only [addSource, h0, h 1 (by decide), h 2 (by decide), h 3 (by decide), h 4 (by decide), h 5 (by decide),
    h 6 (by decide), h 7 (by decide)]

/-- The pass over `mm` adds to group `j` the words `mm` held before the pass (R88). -/
theorem addSource_seedGroups_mm (p : Pass) {j : Nat} (hj : j < 32) (r : Scratch) :
    addSource (seedGroups Engine.mm j p).engine.mm (BitVec.ofNat 8 (8 * j)) r =
      addSource p.engine.mm (BitVec.ofNat 8 (8 * j)) r := by
  refine addSource_congr (fun d hd => readEntry_seedGroups_mm_of_le Engine.mm p (by omega) ?_) r
  rw [← BitVec.ofNat_add, toNat_ofNat_index (by omega)]
  omega

end Sys2Proof.Machine

namespace Sys2Proof.Proofs
open Sys2Proof.Machine

/-- Settles O21: a group's source words are not yet overwritten, and its entries are not written again. -/
theorem seedPassFoldsItsSource : Obligations.SeedPassFoldsItsSource := by
  refine ⟨fun p j hj => ⟨?_, ?_⟩, fun src p j k hj hk => ?_, fun src p => ⟨?_, seedPass_frame src p⟩⟩
  · rw [seedGroups, seedGroup, addSource_seedGroups_mm p hj]
  · rw [seedGroups, seedGroup, seedGroups_randrsl]
  · rw [seedPass_def, Config.seedGroups, readEntry_seedGroups_mm_of_lt src p hk hj (Nat.le_refl 32)]
  · rw [seedPass_def, Config.seedGroups]

/-- Settles O16: SEED's engine is two GEN_STEPs over the two passes, and it is legal. -/
theorem seedCompletes : Obligations.SeedCompletes := by
  intro bytes s
  obtain ⟨-, hbb⟩ := seedEngine_legal bytes s.engine
  exact ⟨_, exec_seed bytes s, rfl, rfl, seedEngine_seeded bytes s.engine, seedEngine_randcnt bytes s.engine,
    seedEngine_cc bytes s.engine, hbb, seedPasses_aa bytes s.engine, seedPasses_bb bytes s.engine,
    seedPasses_cc bytes s.engine, seedEngine_def bytes s.engine⟩

/-- Settles O17: SEED leaves nothing of the engine it finds. -/
theorem seedIgnoresOldState : Obligations.SeedIgnoresOldState :=
  fun bytes s₁ s₂ => ⟨_, _, exec_seed bytes s₁, exec_seed bytes s₂, seedEngine_eq bytes s₁.engine s₂.engine⟩

/-- Settles O20: four closed SEED_MIX, evaluated. -/
theorem prescrambleValue : Obligations.PrescrambleValue :=
  ⟨by decide, rfl⟩

end Sys2Proof.Proofs
end

section
/-! PROOFS. GEN_STEP slot by slot (R100 to R106): which entries are old and which are new when a slot begins, the recurrence
that follows, the corner cases (R110), and the reference construction's loops (R109). -/

namespace Sys2Proof.Machine

/-! ### In place: old and new entries when a slot begins (R106) -/

theorem ofNat_ne_index {k : Nat} {j : Index} (hk : k < 256) (h : j.toNat ≠ k) : BitVec.ofNat 8 k ≠ j := by
  rintro rfl
  exact h (toNat_ofNat_index hk)

/-- The first `n` slots leave the entries from `n` on as they were (R106). -/
theorem readEntry_genSlots_of_le {n : Nat} {j : Index} (h : n ≤ j.toNat) (e : Engine) :
    readEntry (genSlots n e).mm j = readEntry e.mm j ∧ readEntry (genSlots n e).randrsl j = readEntry e.randrsl j := by
  induction n with
  | zero => exact ⟨rfl, rfl⟩
  | succ n ih =>
    have hne : BitVec.ofNat 8 n ≠ j := ofNat_ne_index (by have := j.isLt; omega) (by omega)
    rw [genSlots, genSlot_mm_other _ hne, genSlot_randrsl_other _ hne]
    exact ih (by omega)

/-- Later slots leave the entries below `n` as the first `n` slots left them (R106). -/
theorem readEntry_genSlots_of_lt {m n : Nat} {j : Index} (hj : j.toNat < n) (hnm : n ≤ m) (hm : m ≤ 256) (e : Engine) :
    readEntry (genSlots m e).mm j = readEntry (genSlots n e).mm j ∧
      readEntry (genSlots m e).randrsl j = readEntry (genSlots n e).randrsl j := by
  induction m, hnm using Nat.le_induction with
  | base => exact ⟨rfl, rfl⟩
  | succ m hnm ih =>
    have hne : BitVec.ofNat 8 m ≠ j := ofNat_ne_index (by omega) (by omega)
    rw [genSlots, genSlot_mm_other _ hne, genSlot_randrsl_other _ hne]
    exact ih (by omega)

/-- When slot `n` begins, the entries of `mm` below `n` are the new ones and the others the old ones (R106). -/
theorem readEntry_genSlots_mm {n : Nat} (hn : n ≤ 256) (e : Engine) (j : Index) :
    readEntry (genSlots n (genPrologue e)).mm j = readEntry (if j.toNat < n then (genStep e).mm else e.mm) j := by
  split
  next hj => rw [genStep_def, Config.randsiz, (readEntry_genSlots_of_lt hj hn le_rfl _).1]
  next hj => rw [(readEntry_genSlots_of_le (Nat.not_lt.mp hj) _).1, genPrologue_mm]

/-- And so it is in `randrsl` (R106). -/
theorem readEntry_genSlots_randrsl {n : Nat} (hn : n ≤ 256) (e : Engine) (j : Index) :
    readEntry (genSlots n (genPrologue e)).randrsl j =
      readEntry (if j.toNat < n then (genStep e).randrsl else e.randrsl) j := by
  split
  next hj => rw [genStep_def, Config.randsiz, (readEntry_genSlots_of_lt hj hn le_rfl _).2]
  next hj => rw [(readEntry_genSlots_of_le (Nat.not_lt.mp hj) _).2, genPrologue_randrsl]

/-! ### The recurrence (R101 to R105) -/

/-- `aa` when slot `n` begins. -/
def slotAccumulator (e : Engine) (n : Nat) : Word := (genSlots n (genPrologue e)).aa

theorem slotAccumulator_zero (e : Engine) : slotAccumulator e 0 = e.aa := rfl

theorem slotAccumulator_last (e : Engine) : slotAccumulator e 256 = (genStep e).aa := by
  rw [genStep_def, slotAccumulator, Config.randsiz]

/-- Bits 9:2 of `x` (R104). -/
theorem firstIndirect_eq (x : Word) : firstIndirect x = x.extractLsb' 2 8 := rfl

/-- Bits 17:10 of `y` (R105). -/
theorem secondIndirect_eq (y : Word) : secondIndirect y = y.extractLsb' 10 8 := rfl

/-- The combining operation written with conditionals (R102). -/
theorem slotMix_eq (i : Index) (a : Word) : slotMix i a =
    if i.toNat % 4 = 0 then a ^^^ (a <<< 13)
    else if i.toNat % 4 = 1 then a ^^^ (a >>> 6)
    else if i.toNat % 4 = 2 then a ^^^ (a <<< 2)
    else a ^^^ (a >>> 16) := by
  unfold slotMix
  split
  next h => rw [if_pos h]
  next h => rw [if_neg (by omega), if_pos h]
  next h => rw [if_neg (by omega), if_neg (by omega), if_pos h]
  next h0 h1 h2 => rw [if_neg h0, if_neg h1, if_neg h2]

/-- `bb` when slot `i` begins: what the prologue left, or the word the slot before has output (R101, R105). -/
theorem genSlots_bb (e : Engine) (i : Index) : (genSlots i.toNat (genPrologue e)).bb =
    if i = 0#8 then e.bb + (genStep e).cc else readEntry (genStep e).randrsl (i - 1#8) := by
  split
  next hi => subst hi; rw [genStep_cc]; rfl
  next hi =>
    have hpos : i.toNat ≠ 0 := fun h => hi (BitVec.eq_of_toNat_eq h)
    obtain ⟨n, hn⟩ := Nat.exists_eq_succ_of_ne_zero hpos
    have hlt := i.isLt
    have hprev : i - 1#8 = BitVec.ofNat 8 n := by
      rw [← BitVec.setWidth_eq i, ← BitVec.ofNat_toNat, hn]; bv_omega
    have hread := readEntry_genSlots_randrsl (n := n + 1) (by omega) e (BitVec.ofNat 8 n)
    rw [toNat_ofNat_index (by omega), if_pos (Nat.lt_succ_self n)] at hread
    rw [hn, Nat.succ_eq_add_one, genSlots_succ_bb, hread, hprev]

/-- The partner of the first 128 slots is yet to be written, that of the others has been (R103). -/
theorem partnerIndex_toNat_lt_iff (i : Index) : (partnerIndex i).toNat < i.toNat ↔ ¬ i.toNat < 128 := by
  rw [partnerIndex]; bv_omega

theorem genSlot_aa (i : Index) (e : Engine) :
    (genSlot i e).aa = readEntry e.mm (partnerIndex i) + slotMix i e.aa := rfl

/-- The word a slot writes to `mm` (R104). -/
theorem genSlot_mm_same (i : Index) (e : Engine) : readEntry (genSlot i e).mm i =
    readEntry e.mm (firstIndirect (readEntry e.mm i)) + (genSlot i e).aa + e.bb := by
  simp [genSlot]

/-- The word a slot outputs is read after its write to `mm` (R105). -/
theorem genSlot_bb (i : Index) (e : Engine) : (genSlot i e).bb =
    readEntry (genSlot i e).mm (secondIndirect (readEntry (genSlot i e).mm i)) + readEntry e.mm i := by
  simp [genSlot]

theorem genSlots_toNat_succ (i : Index) (e : Engine) : genSlots (i.toNat + 1) e = genSlot i (genSlots i.toNat e) := by
  rw [genSlots, BitVec.ofNat_toNat, BitVec.setWidth_eq]

/-- An entry not yet written when slot `i` begins is its own (R106). -/
theorem readEntry_genSlots_self (e : Engine) (i : Index) :
    readEntry (genSlots i.toNat (genPrologue e)).mm i = readEntry e.mm i := by
  rw [readEntry_genSlots_mm i.isLt.le, if_neg (Nat.lt_irrefl _)]

/-- The accumulator of the next slot (R102, R103). -/
theorem slotAccumulator_succ (e : Engine) (i : Index) : slotAccumulator e (i.toNat + 1) =
    readEntry (if i.toNat < 128 then e.mm else (genStep e).mm) (partnerIndex i) + slotMix i (slotAccumulator e i.toNat) := by
  rw [slotAccumulator, slotAccumulator, genSlots_toNat_succ, genSlot_aa, readEntry_genSlots_mm i.isLt.le]
  simp only [partnerIndex_toNat_lt_iff, ite_not]

/-- The entry of `mm` that slot `i` writes (R104). -/
theorem readEntry_genStep_mm (e : Engine) (i : Index) : readEntry (genStep e).mm i =
    readEntry (if (firstIndirect (readEntry e.mm i)).toNat < i.toNat then (genStep e).mm else e.mm)
        (firstIndirect (readEntry e.mm i)) + slotAccumulator e (i.toNat + 1) + (genSlots i.toNat (genPrologue e)).bb := by
  have hnew := readEntry_genSlots_mm (n := i.toNat + 1) i.isLt e i
  rw [if_pos (Nat.lt_succ_self _)] at hnew
  rw [← hnew, slotAccumulator, genSlots_toNat_succ, genSlot_mm_same, readEntry_genSlots_self,
    readEntry_genSlots_mm i.isLt.le]

/-- The word that slot `i` outputs (R105). -/
theorem readEntry_genStep_randrsl (e : Engine) (i : Index) : readEntry (genStep e).randrsl i =
    readEntry (if (secondIndirect (readEntry (genStep e).mm i)).toNat ≤ i.toNat then (genStep e).mm else e.mm)
        (secondIndirect (readEntry (genStep e).mm i)) + readEntry e.mm i := by
  have hout := readEntry_genSlots_randrsl (n := i.toNat + 1) i.isLt e i
  have hnew := readEntry_genSlots_mm (n := i.toNat + 1) i.isLt e
  have hself := hnew i
  rw [if_pos (Nat.lt_succ_self _)] at hout hself
  rw [genSlots_toNat_succ] at hout hnew hself
  rw [← hout, genSlot_output, genSlot_bb, hself, hnew, readEntry_genSlots_self]
  simp only [Nat.lt_succ_iff]

/-! ### The zero state (R110) -/

theorem readEntry_zeroBlock (i : Index) : readEntry zeroBlock i = 0#32 := by simp [readEntry, zeroBlock]

theorem writeEntry_zeroBlock (i : Index) : writeEntry zeroBlock i 0#32 = zeroBlock :=
  block_ext fun j => by rw [readEntry_writeEntry, readEntry_zeroBlock, ite_self]

/-- The engine with every element 0 but the output block, the cursor and SEEDED. -/
def zeroEngine (out : Block) (n : Nat) (f : Bool) : Engine := ⟨zeroBlock, out, 0#32, 0#32, 0#32, n, f⟩

/-- `cc` wraps to 0 in the prologue (R101, R110). -/
theorem genPrologue_wraps (out : Block) (n : Nat) (f : Bool) :
    genPrologue ⟨zeroBlock, out, 0#32, 0#32, 0xffffffff#32, n, f⟩ = zeroEngine out n f := by
  simp [genPrologue, zeroEngine]

theorem slotMix_zero (i : Index) : slotMix i 0#32 = 0#32 := by
  unfold slotMix
  split <;> decide

/-- A slot of the zero state outputs 0 and changes nothing else (R110). -/
theorem genSlot_zeroEngine (i : Index) (out : Block) (n : Nat) (f : Bool) :
    genSlot i (zeroEngine out n f) = zeroEngine (writeEntry out i 0#32) n f := by
  simp [genSlot, zeroEngine, readEntry_zeroBlock, slotMix_zero, writeEntry_zeroBlock]

/-- The slots of the zero state fill the output block with zeros (R110). -/
theorem genSlots_zeroEngine {k : Nat} (hk : k ≤ 256) (out : Block) (n : Nat) (f : Bool) :
    ∃ out', genSlots k (zeroEngine out n f) = zeroEngine out' n f ∧ ∀ j : Index, j.toNat < k → readEntry out' j = 0#32 := by
  induction k with
  | zero => exact ⟨out, rfl, fun _ h => absurd h (Nat.not_lt_zero _)⟩
  | succ k ih =>
    obtain ⟨out', hslots, hzero⟩ := ih (by omega)
    refine ⟨writeEntry out' (BitVec.ofNat 8 k) 0#32, by rw [genSlots, hslots, genSlot_zeroEngine], fun j hj => ?_⟩
    rw [readEntry_writeEntry]
    split
    · rfl
    next hne =>
      refine hzero j (lt_of_le_of_ne (Nat.lt_succ_iff.mp hj) ?_)
      rintro rfl
      exact hne (by rw [BitVec.ofNat_toNat, BitVec.setWidth_eq])

/-! ### The reference construction (R109) -/

/-- A word at a byte offset masked to word boundaries is the one at bits 9:2 of the offset (R43, R104). -/
theorem wordAtByteOffset_mask (b : Block) (x : Word) :
    wordAtByteOffset b (x &&& 0x3FC#32) = readEntry b ((x >>> 2).setWidth 8) := by
  have hdiv : (x &&& 0x3FC#32).toNat / 4 = ((x &&& 0x3FC#32) >>> 2).toNat := by
    rw [BitVec.toNat_ushiftRight, Nat.shiftRight_eq_div_pow]
  have hmask : ∀ k < 8, (0x3FC#32).getLsbD (2 + k) = true := by decide
  rw [wordAtByteOffset, hdiv, BitVec.ofNat_toNat]
  congr 1
  apply BitVec.eq_of_getLsbD_eq
  intro k hk
  simp [hk, hmask k hk]

/-- The second indirect read of a slot, at bits 17:10 (R43, R105). -/
theorem wordAtByteOffset_mask_shiftRight (b : Block) (y : Word) :
    wordAtByteOffset b ((y >>> 8) &&& 0x3FC#32) = readEntry b ((y >>> 10).setWidth 8) := by
  rw [wordAtByteOffset_mask, ← BitVec.shiftRight_add]

/-- A slot in the reference's form is the slot, when its operation and its partner pointer are the slot's (R109). -/
theorem referenceSlot_eq_genSlot {mix : Word → Word} {m m2 : Nat} (hmix : ∀ a, mix a = slotMix (BitVec.ofNat 8 m) a)
    (hpartner : BitVec.ofNat 8 m2 = partnerIndex (BitVec.ofNat 8 m)) (e : Engine) :
    referenceSlot mix m m2 e = genSlot (BitVec.ofNat 8 m) e := by
  have haa : mix e.aa + readEntry e.mm (BitVec.ofNat 8 m2) =
      readEntry e.mm (partnerIndex (BitVec.ofNat 8 m)) + slotMix (BitVec.ofNat 8 m) e.aa := by
    rw [hmix, hpartner, BitVec.add_comm]
  simp only [referenceSlot, genSlot, haa, firstIndirect, secondIndirect, ← wordAtByteOffset_mask,
    ← wordAtByteOffset_mask_shiftRight]

/-- The partner pointer runs 128 entries away, in either direction (R103, R109). -/
theorem ofNat_eq_partnerIndex {m m2 : Nat} (h : m2 % 256 = (m + 128) % 256) :
    BitVec.ofNat 8 m2 = partnerIndex (BitVec.ofNat 8 m) := by
  apply BitVec.eq_of_toNat_eq
  simp only [partnerIndex, BitVec.toNat_add, BitVec.toNat_ofNat]
  omega

/-- A loop body is four slots: the operation of each is the one its number selects (R102, R109). -/
theorem referenceBody_eq_genSlots {m m2 : Nat} (hm : m % 4 = 0) (h : m2 % 256 = (m + 128) % 256) (e : Engine) :
    referenceBody m m2 (genSlots m e) = genSlots (m + 4) e := by
  have hmod : ∀ d < 4, (BitVec.ofNat 8 (m + d)).toNat % 4 = d := fun d hd => by rw [BitVec.toNat_ofNat]; omega
  have hmod₀ : (BitVec.ofNat 8 m).toNat % 4 = 0 := hmod 0 (by decide)
  have hmix₀ : ∀ a : Word, a ^^^ (a <<< 13) = slotMix (BitVec.ofNat 8 m) a := fun a => by
    rw [slotMix_eq, hmod₀]; rfl
  have hmix₁ : ∀ a : Word, a ^^^ (a >>> 6) = slotMix (BitVec.ofNat 8 (m + 1)) a := fun a => by
    rw [slotMix_eq, hmod 1 (by decide)]; rfl
  have hmix₂ : ∀ a : Word, a ^^^ (a <<< 2) = slotMix (BitVec.ofNat 8 (m + 2)) a := fun a => by
    rw [slotMix_eq, hmod 2 (by decide)]; rfl
  have hmix₃ : ∀ a : Word, a ^^^ (a >>> 16) = slotMix (BitVec.ofNat 8 (m + 3)) a := fun a => by
    rw [slotMix_eq, hmod 3 (by decide)]; rfl
  rw [referenceBody, referenceSlot_eq_genSlot hmix₀ (ofNat_eq_partnerIndex h),
    referenceSlot_eq_genSlot hmix₁ (ofNat_eq_partnerIndex (by omega)),
    referenceSlot_eq_genSlot hmix₂ (ofNat_eq_partnerIndex (by omega)),
    referenceSlot_eq_genSlot hmix₃ (ofNat_eq_partnerIndex (by omega))]
  rfl

/-- A loop of the reference is the slots it runs over (R109). -/
theorem referenceLoop_eq_genSlots {m m2 : Nat} (hm : m % 4 = 0) (h : m2 % 256 = (m + 128) % 256) (n : Nat)
    (e : Engine) :
    referenceLoop m m2 n (genSlots m e) = genSlots (m + 4 * n) e := by
  induction n with
  | zero => rfl
  | succ n ih => rw [referenceLoop, ih, referenceBody_eq_genSlots (by omega) (by omega), Nat.mul_succ, Nat.add_assoc]

/-- The reference's two loops are the 256 slots (R109). -/
theorem referenceStep_eq_genStep (e : Engine) : referenceStep e = genStep e := by
  have hfirst := referenceLoop_eq_genSlots (m := 0) (m2 := 128) rfl rfl 32 (genPrologue e)
  rw [genSlots] at hfirst
  rw [referenceStep, hfirst, genStep_def]
  exact referenceLoop_eq_genSlots (m := 128) (m2 := 0) rfl rfl 32 (genPrologue e)

end Sys2Proof.Machine

namespace Sys2Proof.Proofs
open Sys2Proof.Machine

/-- Settles O22: when slot `i` begins the entries below `i` are those after the step and the others those before it. -/
theorem genStepRecurrence : Obligations.GenStepRecurrence := by
  intro e t
  refine ⟨genStep_cc e, genStep_bb e, genStep_randcnt e, genStep_seeded e, slotAccumulator e, slotAccumulator_zero e,
    slotAccumulator_last e, fun i => ?_⟩
  intro x y bbBefore a mixed
  refine ⟨?_, ?_, ?_⟩
  · rw [slotAccumulator_succ, slotMix_eq]
    rfl
  · have hwrite := readEntry_genStep_mm e i
    rwa [genSlots_bb, firstIndirect_eq] at hwrite
  · have hout := readEntry_genStep_randrsl e i
    rwa [secondIndirect_eq] at hout

/-- Settles O23: slot `i` writes entry `i` of either block and no other. -/
theorem genStepWorksInPlace : Obligations.GenStepWorksInPlace :=
  fun e _ j hn => ⟨readEntry_genSlots_mm hn e j, readEntry_genSlots_randrsl hn e j⟩

/-- Settles O24: each loop body is four slots, and a masked byte offset selects the word that the index selects. -/
theorem genStepMatchesReferenceLoops : Obligations.GenStepMatchesReferenceLoops :=
  ⟨referenceStep_eq_genStep, wordAtByteOffset_mask, wordAtByteOffset_mask_shiftRight⟩

/-- Settles O26: the zero state is fixed but for the output block, all of which becomes 0; the two first slots are
evaluated. -/
theorem genStepCornerCases : Obligations.GenStepCornerCases := by
  intro out n f
  refine ⟨?_, ?_, ?_⟩
  · obtain ⟨out', hslots, hzero⟩ := genSlots_zeroEngine (Nat.le_refl 256) out n f
    obtain rfl : out' = zeroBlock := block_ext fun j => (hzero j j.isLt).trans (readEntry_zeroBlock j).symm
    rw [genStep_def, genPrologue_wraps]
    exact hslots
  · simp [genSlots, genSlot, genPrologue, readEntry_zeroBlock, slotMix, partnerIndex, firstIndirect, secondIndirect]
  · simp [genSlots, genSlot, genPrologue, readEntry_zeroBlock, slotMix, partnerIndex, firstIndirect, secondIndirect,
      readEntry_writeEntry]

end Sys2Proof.Proofs
end
